-- ==== Sys2Proof/Word.lean ====
section
/-! DEFINITION. The fixed-width words of the block, and the three-axis triple the spec keeps
its calibration registers in. -/

namespace Sys2Proof

/-- One byte of the command or the response stream (00_scope.md R8: an integer 0..255). -/
abbrev Byte := BitVec 8

/-- A 16-bit entry of an averaging buffer (10_state.md R26). -/
abbrev Half := BitVec 16

/-- A 32-bit register or response word (10_state.md R23, R24, R30). -/
abbrev Word := BitVec 32

/-- A triple (x, y, z), one value per spatial direction (10_state.md R24: "a triple of signed
integers (x, y, z)"); index j = 0, 1, 2 of the spec is x, y, z. -/
structure Xyz (α : Type) where
  x : α
  y : α
  z : α
deriving DecidableEq, Repr

/-- One value for each of the six filtered axes, in the order of 10_state.md R27. -/
structure Six (α : Type) where
  accelX : α
  accelY : α
  accelZ : α
  gyroX : α
  gyroY : α
  gyroZ : α
deriving DecidableEq, Repr

end Sys2Proof
end

