-- ==== Sys2Proof/Frame.lean ====
section
/-! DEFINITION. The two payload frames, byte for byte (30_encoding.md R74, R75). -/

namespace Sys2Proof

/-- The 6-byte calibration frame of CAL_PROBE (30_encoding.md R74), in the order of its bytes. -/
structure CalFrame where
  gxH : Byte
  gxL : Byte
  gyH : Byte
  gyL : Byte
  gzH : Byte
  gzL : Byte
deriving DecidableEq, Repr

/-- The 14-byte sample frame of SAMPLE (30_encoding.md R75), in the order of its bytes. -/
structure SampleFrame where
  axH : Byte
  axL : Byte
  ayH : Byte
  ayL : Byte
  azH : Byte
  azL : Byte
  tH : Byte
  tL : Byte
  gxH : Byte
  gxL : Byte
  gyH : Byte
  gyL : Byte
  gzH : Byte
  gzL : Byte
deriving DecidableEq, Repr

end Sys2Proof
end

