-- ==== Sys2Proof/Config.lean ====
section
/-! DEFINITION. What an implementation of the block fixes when it is built, and the one value
the spec leaves unstated. -/

namespace Sys2Proof

/-- The configuration (00_scope.md R6, 10_state.md R34): fixed when the block is built; no
command and no reset changes it. The types admit exactly the configurations R6 admits. -/
structure Config where
  /-- `P_LOG2`, 0 ≤ `P_LOG2` ≤ 15: log2 of the calibration divisor P. -/
  pLog2 : Fin 16
  /-- `CAL_EXTRA_PROBE`: take P probes (false, 0) or P + 1 probes (true, 1). -/
  calExtraProbe : Bool
deriving DecidableEq, Repr

/-- The default configuration of 00_scope.md R6: `P_LOG2` = 10, `CAL_EXTRA_PROBE` = 0. -/
def Config.default : Config := { pLog2 := 10, calExtraProbe := false }

/-- DESIGN CHOICE (log entry 4). What an n-bit register holds after a write of a value v that
is outside its range. The spec states no such value: it derives that no run writes one
(10_state.md R22, R33; 41_calibrator.md R122). A free value: no body, so nothing can be proved
of it. -/
opaque Config.outOfRange (n : Nat) (v : Int) : BitVec n

end Sys2Proof
end

