-- ==== Sys2Proof/Machine/State.lean ====
section
/-! DEFINITION. The state of the block as plain data, the reasons a step can stop, and the state
right after reset. -/

namespace Sys2Proof.Machine

/-- `PHASE`, the block's two sequencing states (10_state.md R21): 0 is CALIBRATING, 1 RUNNING. -/
inductive Phase where
  | calibrating
  | running
deriving DecidableEq, Repr

/-- The six filtered axes (10_state.md R27). -/
inductive Axis where
  | accelX
  | accelY
  | accelZ
  | gyroX
  | gyroY
  | gyroZ
deriving DecidableEq, Repr

/-- What the host can do to the block (60_exceptions.md R200): send one byte of the command
stream, or reset, which it may do at any point between bytes (70_reset_and_hazards.md R210). -/
inductive HostAction where
  | byte (b : Byte)
  | reset
deriving DecidableEq, Repr

/-- The buffer space (20_memory.md R50) as its listed bytes: entry e of the 48 is the bytes 2e
and 2e + 1 (log entry 2). -/
abbrev Memory := List Host.Cell

/-- What an unlisted byte of the buffer space reads as: every entry is 0 at reset
(10_state.md R26). -/
def unlistedByte : Byte := 0

/-- Entries of the buffer space: addresses 0..47 (20_memory.md R50, R51). -/
def bufferEntries : Nat := 48

/-- The canonical form: byte addresses strictly rising, each inside the 48 entries, and no byte
listed that reads as an unlisted one does. -/
abbrev Memory.wf (m : Memory) : Prop :=
  m.Pairwise (fun c d => c.1 < d.1) ∧
    ∀ c ∈ m, c.1 < 2 * bufferEntries ∧ c.2 ≠ unlistedByte

/-- The state of the block: the tuple of 10_state.md R20, the optional RSUM of R33, and around
it the configuration and the two streams (20_memory.md R50). -/
structure State where
  /-- `P_LOG2` and `CAL_EXTRA_PROBE` (10_state.md R34): no step changes them (log entry 1). -/
  cfg : Config
  /-- `PHASE` (10_state.md R21). -/
  phase : Phase
  /-- `PCNT`, the 16-bit unsigned probe counter (10_state.md R22). -/
  pcnt : BitVec 16
  /-- `ACC[0..2]`, the 32-bit signed calibration accumulators (10_state.md R23). -/
  acc : Xyz Word
  /-- `OFFSET[0..2]`, the 32-bit signed gyroscope bias (10_state.md R24). -/
  offset : Xyz Word
  /-- `BUF[0..5][0..7]`, the buffer space (10_state.md R26, 20_memory.md R51). -/
  mem : Memory
  /-- `CURSOR`, the shared 3-bit index of the next slot to overwrite (10_state.md R28). -/
  cursor : BitVec 3
  /-- `ERR`, the 4-bit sticky error cause (10_state.md R29). -/
  err : BitVec 4
  /-- `RSUM[0..5]` where the implementation has it (10_state.md R33; log entry 5). -/
  rsum : Option (Six (BitVec 20))
  /-- The command stream: the host's actions that are not consumed yet, the earliest first
  (20_memory.md R50; log entry 6). -/
  input : List HostAction
  /-- The response stream so far, the earliest byte first (20_memory.md R50; log entry 7). -/
  output : List Byte
deriving DecidableEq, Repr

/-- Why a step stops. -/
inductive Fault where
  /-- Raised by `step` where the input is exhausted between commands: the block waits for a
  header and has no enabled step (60_exceptions.md R200; 93_implementation_defined.md U3). This is
  "not a fault of the block"; a run ends here (70_reset_and_hazards.md R218). Safe. -/
  | awaitingHeader
  /-- Raised by `step` where the input is exhausted inside a command: the partial command is
  not executed and the block waits (30_encoding.md R79; 93_implementation_defined.md U1). Safe. -/
  | awaitingPayload
  /-- Raised by `memRead` and `memWrite` at an address 48..63, which does not exist
  (20_memory.md R51). No command reaches it. Safe. -/
  | noSuchEntry
deriving DecidableEq, Repr

/-- Why an instruction has no meaning. -/
inductive Refusal where
  /-- Raised only by a refused arm of `exec`, for an instruction that has no meaning yet; this
  model has none. Safe. -/
  | notModelled (mnemonic : String)
deriving DecidableEq, Repr

/-- The six running sums at reset (10_state.md R33). -/
def rsumZero : Six (BitVec 20) :=
  { accelX := 0, accelY := 0, accelZ := 0, gyroX := 0, gyroY := 0, gyroZ := 0 }

/-- The state after reset of a block built with the configuration c and, where hasRsum, with the
optional RSUM (70_reset_and_hazards.md R210): every element at its reset value, both streams
empty (log entries 6 and 7). -/
def State.resetWith (c : Config) (hasRsum : Bool) : State :=
  { cfg := c
    phase := .calibrating
    pcnt := 0
    acc := { x := 0, y := 0, z := 0 }
    offset := { x := 0, y := 0, z := 0 }
    mem := []
    cursor := 0
    err := 0
    rsum := if hasRsum then some rsumZero else none
    input := []
    output := [] }

/-- The state after reset in the default configuration (00_scope.md R6), with RSUM present
(log entry 5). -/
def State.reset : State := State.resetWith Config.default true

end Sys2Proof.Machine
end

