-- ==== Sys2Proof/Machine/Operands.lean ====
section
/-! DEFINITION. The Register Codec: how a command's operands are assembled from its payload
bytes (30_encoding.md R76, 40_decoder.md). -/

namespace Sys2Proof.Machine

/-- `decode16(h, l)` (40_decoder.md R100): two bytes, high byte first, as a signed 16-bit value.
It validates nothing (R101). -/
def decode16 (h l : Byte) : Int :=
  let u : Nat := h.toNat * 256 + l.toNat
  if u ≥ 32768 then (u : Int) - 65536 else (u : Int)

/-- `decodeGyro(b)` of a 6-byte calibration frame (40_decoder.md R104). -/
def decodeGyro (f : CalFrame) : Xyz Int :=
  { x := decode16 f.gxH f.gxL, y := decode16 f.gyH f.gyL, z := decode16 f.gzH f.gzL }

/-- The seven decoded values of a sample frame: accelerometer, temperature, gyroscope. They last
for one command (10_state.md R35). -/
structure RawSample where
  accel : Xyz Int
  temperature : Int
  gyro : Xyz Int
deriving DecidableEq, Repr

/-- `decodeSample(b)` of a 14-byte sample frame (40_decoder.md R103). -/
def decodeSample (f : SampleFrame) : RawSample :=
  { accel :=
      { x := decode16 f.axH f.axL, y := decode16 f.ayH f.ayL, z := decode16 f.azH f.azL }
    temperature := decode16 f.tH f.tL
    gyro :=
      { x := decode16 f.gxH f.gxL, y := decode16 f.gyH f.gyL, z := decode16 f.gzH f.gzL } }

end Sys2Proof.Machine
end

