-- ==== Sys2Proof/Machine/Arith.lean ====
section
/-! DEFINITION. The integer notation of 00_scope.md R8: sign extension, wrapping, the truncating
quotient, the shifts, and the narrowing of a value into a register. -/

namespace Sys2Proof.Machine

/-- `sext_n(u)`, for 0 ≤ u < 2^n: the two's-complement value of the n-bit pattern u
(00_scope.md R8). -/
def sext (n u : Nat) : Int :=
  if u < 2 ^ (n - 1) then (u : Int) else (u : Int) - ((2 ^ n : Nat) : Int)

/-- `wrap_n(v)` = `sext_n(v mod 2^n)` with the non-negative remainder (00_scope.md R8). -/
def wrap (n : Nat) (v : Int) : Int := sext n (v % ((2 ^ n : Nat) : Int)).toNat

/-- `tdiv(n, d)`, for d ≥ 1: `sign(n) · floor(|n| / d)`, the quotient rounded toward zero
(00_scope.md R8). -/
def tdiv (n : Int) (d : Nat) : Int := n.sign * ((n.natAbs / d : Nat) : Int)

/-- `n >>a k` = `floor(n / 2^k)`, the arithmetic right shift (00_scope.md R8). -/
def asr (n : Int) (k : Nat) : Int := n.fdiv ((2 ^ k : Nat) : Int)

/-- The truncating divide by 2^k built from a right shifter: negative values get the bias
2^k − 1 before the shift (41_calibrator.md R124). -/
def tdivByShift (n : Int) (k : Nat) : Int :=
  if 0 ≤ n then asr n k else asr (n + (((2 ^ k : Nat) : Int) - 1)) k

/-- The same divide as a shift of the magnitude (41_calibrator.md R124: "the equivalent
sign-magnitude shift"). -/
def tdivBySignMagnitude (n : Int) (k : Nat) : Int := if 0 ≤ n then asr n k else -asr (-n) k

/-- An n-bit signed register can hold v. -/
def fitsSigned (n : Nat) (v : Int) : Bool :=
  decide (-((2 ^ (n - 1) : Nat) : Int) ≤ v ∧ v < ((2 ^ (n - 1) : Nat) : Int))

/-- An n-bit unsigned register can hold v. -/
def fitsUnsigned (n : Nat) (v : Nat) : Bool := decide (v < 2 ^ n)

/-- What an n-bit signed register holds after v is written to it: "A rule writes a register only
with a value in that register's range" (00_scope.md R8). A value outside it, which no run
writes, leaves the free value of log entry 4. -/
def narrowSigned (n : Nat) (v : Int) : BitVec n :=
  if fitsSigned n v then BitVec.ofInt n v else Config.outOfRange n v

/-- What an n-bit unsigned register holds after v is written to it (00_scope.md R8; a value
outside its range leaves the free value of log entry 4). -/
def narrowUnsigned (n : Nat) (v : Nat) : BitVec n :=
  if fitsUnsigned n v then BitVec.ofNat n v else Config.outOfRange n v

/-- A 16-bit value as two response bytes, high byte first (20_memory.md R54). -/
def halfBytes (v : Half) : List Byte := [v.extractLsb' 8 8, v.extractLsb' 0 8]

/-- A 32-bit value as four response bytes, high byte first (20_memory.md R54). -/
def wordBytes (v : Word) : List Byte :=
  [v.extractLsb' 24 8, v.extractLsb' 16 8, v.extractLsb' 8 8, v.extractLsb' 0 8]

end Sys2Proof.Machine
end

