-- ==== Sys2Proof/Machine/Flags.lean ====
section
/-! DEFINITION. The block's only flags, PHASE and ERR (10_state.md R32), the error causes, the
derived configuration values and the STATUS word. -/

namespace Sys2Proof.Machine

/-- The error causes (60_exceptions.md R190). Codes 4..15 are reserved and never raised. -/
inductive CmdError where
  /-- SAMPLE while `PHASE` = 0. -/
  | sampleWhileCalibrating
  /-- CAL_PROBE while `PHASE` = 1. -/
  | probeWhileRunning
  /-- A header 0x00 or 0x05..0xFF. -/
  | reservedOpcode
deriving DecidableEq, Repr

/-- The code of a cause, as `ERR` records it (60_exceptions.md R190). -/
def CmdError.code : CmdError → BitVec 4
  | .sampleWhileCalibrating => 1
  | .probeWhileRunning => 2
  | .reservedOpcode => 3

/-- The sticky rule of `ERR`: "first error since reset wins" (60_exceptions.md R191). -/
def stickyErr (err : BitVec 4) (c : CmdError) : BitVec 4 := if err = 0 then c.code else err

/-- The bit of `PHASE` (10_state.md R21). -/
def Phase.bit : Phase → BitVec 1
  | .calibrating => 0
  | .running => 1

/-- `P` = 2^`P_LOG2`, the calibration divisor (00_scope.md R6). -/
def divisorP (c : Config) : Nat := 2 ^ c.pLog2.val

/-- The bit of `CAL_EXTRA_PROBE` (00_scope.md R6). -/
def extraBit (c : Config) : BitVec 1 := if c.calExtraProbe then 1 else 0

/-- `N_PROBES` = `P + CAL_EXTRA_PROBE` (00_scope.md R6). -/
def nProbes (c : Config) : Nat := divisorP c + (extraBit c).toNat

/-- The STATUS word (10_state.md R30, 44_status.md R180), the formula as it stands there. -/
def statusWord (s : State) : Word :=
  ((extraBit s.cfg).zeroExtend 32 <<< 28) ||| (BitVec.ofNat 32 s.cfg.pLog2.val <<< 24) |||
    (s.pcnt.zeroExtend 32 <<< 8) ||| (s.err.zeroExtend 32 <<< 4) |||
    (s.cursor.zeroExtend 32 <<< 1) ||| s.phase.bit.zeroExtend 32

end Sys2Proof.Machine
end

