-- ==== Sys2Proof/Machine/Ops.lean ====
section
/-! DEFINITION. The shared operations: the buffer space, the response, recording an error,
reset. -/

namespace Sys2Proof.Machine

/-- One byte of the buffer space. -/
def readByte : Memory → Nat → Byte
  | [], _ => unlistedByte
  | (k, b) :: m, a => if k = a then b else readByte m a

/-- The memory with one byte written, in canonical form: a byte that reads as an unlisted one
does is not listed. -/
def writeByte : Memory → Nat → Byte → Memory
  | [], a, b => if b = unlistedByte then [] else [(a, b)]
  | (k, c) :: m, a, b =>
    if a < k then (if b = unlistedByte then (k, c) :: m else (a, b) :: (k, c) :: m)
    else if a = k then (if b = unlistedByte then m else (a, b) :: m)
    else (k, c) :: writeByte m a b

/-- Entry e of the buffer space: bits 15:8 in byte 2e, bits 7:0 in byte 2e + 1
(DESIGN CHOICE, log entry 2; no command can see the order). -/
def readEntry (m : Memory) (e : Nat) : Half :=
  readByte m (2 * e) ++ readByte m (2 * e + 1)

/-- The memory with entry e written (log entry 2). -/
def writeEntry (m : Memory) (e : Nat) (v : Half) : Memory :=
  writeByte (writeByte m (2 * e) (v.extractLsb' 8 8)) (2 * e + 1) (v.extractLsb' 0 8)

/-- `MemRead(addr, 2)`: the signed value of one whole entry (20_memory.md R51). Addresses 48..63
of the 6-bit space do not exist. -/
def memRead (addr : BitVec 6) (s : State) : Except Fault Int :=
  if addr.toNat < bufferEntries then .ok (readEntry s.mem addr.toNat).toInt
  else .error .noSuchEntry

/-- `MemWrite(addr, 2, v)`: stores v, which lies in −32768..32767, in one whole entry
(20_memory.md R51). -/
def memWrite (addr : BitVec 6) (v : Int) (s : State) : Except Fault State :=
  if addr.toNat < bufferEntries then
    .ok { s with mem := writeEntry s.mem addr.toNat (narrowSigned 16 v) }
  else .error .noSuchEntry

/-- The index a of an axis (10_state.md R27). -/
def Axis.index : Axis → Nat
  | .accelX => 0
  | .accelY => 1
  | .accelZ => 2
  | .gyroX => 3
  | .gyroY => 4
  | .gyroZ => 5

/-- The six axes in the order of their indices, which is also the order of the output record
(10_state.md R27, 43_pipeline.md R163). -/
def Axis.all : List Axis := [.accelX, .accelY, .accelZ, .gyroX, .gyroY, .gyroZ]

/-- The eight slots of a buffer, in the order FilterSum adds them (42_filter.md R141). -/
def slots : List (BitVec 3) := [0, 1, 2, 3, 4, 5, 6, 7]

/-- The address 8·a + i of `BUF[a][i]` (20_memory.md R51). -/
def bufAddr (a : Axis) (i : BitVec 3) : BitVec 6 := BitVec.ofNat 6 (8 * a.index + i.toNat)

/-- The value of one axis among six. -/
def Six.get {α : Type} (v : Six α) : Axis → α
  | .accelX => v.accelX
  | .accelY => v.accelY
  | .accelZ => v.accelZ
  | .gyroX => v.gyroX
  | .gyroY => v.gyroY
  | .gyroZ => v.gyroZ

/-- Six values with that of one axis replaced. -/
def Six.set {α : Type} (v : Six α) (a : Axis) (x : α) : Six α :=
  match a with
  | .accelX => { v with accelX := x }
  | .accelY => { v with accelY := x }
  | .accelZ => { v with accelZ := x }
  | .gyroX => { v with gyroX := x }
  | .gyroY => { v with gyroY := x }
  | .gyroZ => { v with gyroZ := x }

/-- One operation on each direction of two triples. -/
def Xyz.map₂ {α β γ : Type} (f : α → β → γ) (v : Xyz α) (w : Xyz β) : Xyz γ :=
  { x := f v.x w.x, y := f v.y w.y, z := f v.z w.z }

/-- One operation on each direction of a triple. -/
def Xyz.map {α β : Type} (f : α → β) (v : Xyz α) : Xyz β :=
  { x := f v.x, y := f v.y, z := f v.z }

/-- `respond(v)`: appends the command's response to the response stream (00_scope.md R9,
30_encoding.md R80). -/
def respond (bytes : List Byte) (s : State) : State := { s with output := s.output ++ bytes }

/-- The host's actions up to here are consumed (20_memory.md R61: each command's bytes are
consumed once and never kept). -/
def withInput (rest : List HostAction) (s : State) : State := { s with input := rest }

/-- `raise CmdError(c)`, all the block has of taking an exception (60_exceptions.md R191, R194):
`ERR` records the first cause since reset; no other state is written and the response is empty.
There is no return from it: the next command runs as usual (R194). -/
def raiseCmdError (c : CmdError) (s : State) : State := { s with err := stickyErr s.err c }

/-- `Reset()` (70_reset_and_hazards.md R210): every state element to its reset value. The
configuration and the response stream are untouched. -/
def hostReset (s : State) : State :=
  { s with
    phase := .calibrating
    pcnt := 0
    acc := { x := 0, y := 0, z := 0 }
    offset := { x := 0, y := 0, z := 0 }
    mem := []
    cursor := 0
    err := 0
    rsum := s.rsum.map fun _ => rsumZero }

end Sys2Proof.Machine
end

