-- ==== Sys2Proof/Machine/Calibrator.lean ====
section
/-! DEFINITION. The gyroscope bias calibrator (41_calibrator.md). -/

namespace Sys2Proof.Machine

/-- `ACC[j] <- ACC[j] + g[j]` for each axis and `PCNT <- PCNT + 1` (41_calibrator.md R120). -/
def accumulate (g : Xyz Int) (s : State) : State :=
  { s with
    acc := Xyz.map₂ (fun a x => narrowSigned 32 (a.toInt + x)) s.acc g
    pcnt := narrowUnsigned 16 (s.pcnt.toNat + 1) }

/-- `CalComplete()` (41_calibrator.md R121): `OFFSET[j] <- tdiv(ACC[j], P)`, `PHASE <- 1`; `ACC`
keeps its sums. The divisor is P in both modes of `CAL_EXTRA_PROBE` (90_conflicts.md C4). -/
def calComplete (s : State) : State :=
  { s with
    offset := Xyz.map (fun a => narrowSigned 32 (tdiv a.toInt (divisorP s.cfg))) s.acc
    phase := .running }

/-- CAL_PROBE (41_calibrator.md R120): one probe; the probe that makes `PCNT` equal to
`N_PROBES` completes the calibration in the same step. Rejected while RUNNING (R125). -/
def execCalProbe (f : CalFrame) (s : State) : Host.Outcome State Fault Refusal :=
  match s.phase with
  | .running => .next (raiseCmdError .probeWhileRunning s)
  | .calibrating =>
    let t := accumulate (decodeGyro f) s
    .next (if t.pcnt.toNat = nProbes t.cfg then calComplete t else t)

end Sys2Proof.Machine
end

