-- ==== Sys2Proof/Machine/Decoder.lean ====
section
/-! DEFINITION. DECODE (40_decoder.md R102). -/

namespace Sys2Proof.Machine

/-- DECODE: answers bits 15:0 of `decode16(HI, LO)`, high byte first. It writes no register and
is legal in both phases (40_decoder.md R102). -/
def execDecode (hi lo : Byte) (s : State) : Host.Outcome State Fault Refusal :=
  .next (respond (halfBytes (narrowSigned 16 (decode16 hi lo))) s)

end Sys2Proof.Machine
end

