-- ==== Sys2Proof/Machine/Filter.lean ====
section
/-! DEFINITION. The six-axis moving-average filter (42_filter.md): internal operations that
SAMPLE calls; the filter has no command of its own. -/

namespace Sys2Proof.Machine

/-- `FilterWrite(a, v)` (42_filter.md R140): `MemWrite(8*a + CURSOR, 2, v)`. -/
def filterWrite (a : Axis) (v : Int) (s : State) : Except Fault State :=
  memWrite (bufAddr a s.cursor) v s

/-- The sum of the entries of axis a at the listed slots. -/
def filterSumFrom (a : Axis) (s : State) : List (BitVec 3) → Except Fault Int
  | [] => .ok 0
  | i :: is => do
    let x ← memRead (bufAddr a i) s
    let rest ← filterSumFrom a s is
    .ok (x + rest)

/-- `FilterSum(a)` (42_filter.md R141): the exact sum of all eight entries, written or not. -/
def filterSum (a : Axis) (s : State) : Except Fault Int := filterSumFrom a s slots

/-- `CursorAdvance()` (42_filter.md R143): `CURSOR <- (CURSOR + 1) mod 8`. -/
def cursorAdvance (s : State) : State :=
  { s with cursor := BitVec.ofNat 3 ((s.cursor.toNat + 1) % 8) }

/-- The optional running sum's update, just before `FilterWrite(a, v)` (10_state.md R33,
42_filter.md R146): `RSUM[a] <- RSUM[a] − BUF[a][CURSOR] + v`. -/
def rsumUpdate (a : Axis) (v : Int) (s : State) : Except Fault State :=
  match s.rsum with
  | none => .ok s
  | some r => do
    let old ← memRead (bufAddr a s.cursor) s
    .ok { s with rsum := some (Six.set r a (narrowSigned 20 ((Six.get r a).toInt - old + v))) }

/-- The writes of one cycle for the listed axes, all at the same cursor (42_filter.md R142). -/
def filterWrites (v : Axis → Int) : List Axis → State → Except Fault State
  | [], s => .ok s
  | a :: as, s => do
    let s ← rsumUpdate a (v a) s
    let s ← filterWrite a (v a) s
    filterWrites v as s

/-- The sums of one cycle for the listed axes, after every write (42_filter.md R142). -/
def filterSums (s : State) : List Axis → Except Fault (List Int)
  | [] => .ok []
  | a :: as => do
    let x ← filterSum a s
    let rest ← filterSums s as
    .ok (x :: rest)

/-- A mean numerator as its response word: 19 bits sign-extended to 32, high byte first
(30_encoding.md R80, 43_pipeline.md R163). -/
def sumBytes (x : Int) : List Byte := wordBytes ((narrowSigned 19 x).signExtend 32)

/-- The mean of an axis whose numerator is S: the rational S / 8, delivered as S and never
rounded (42_filter.md R145). -/
def meanOf (x : Int) : Rat := (x : Rat) / 8

end Sys2Proof.Machine
end

