-- ==== Sys2Proof/Machine/Pipeline.lean ====
section
/-! DEFINITION. Bias correction and SAMPLE (43_pipeline.md). -/

namespace Sys2Proof.Machine

/-- The six values of one cycle (43_pipeline.md R161, R162): acceleration as decoded, each gyro
value less its offset, wrapped to 16 bits; the temperature enters nowhere (40_decoder.md R105). -/
def correctedValue (r : RawSample) (offset : Xyz Word) : Axis → Int
  | .accelX => r.accel.x
  | .accelY => r.accel.y
  | .accelZ => r.accel.z
  | .gyroX => wrap 16 (r.gyro.x - offset.x.toInt)
  | .gyroY => wrap 16 (r.gyro.y - offset.y.toInt)
  | .gyroZ => wrap 16 (r.gyro.z - offset.z.toInt)

/-- One Running cycle (43_pipeline.md R161, steps 2 to 6): all six writes, then all six sums,
then the response, then one cursor advance (42_filter.md R142). -/
def sampleCycle (f : SampleFrame) (s : State) : Except Fault State := do
  let t ← filterWrites (correctedValue (decodeSample f) s.offset) Axis.all s
  let sums ← filterSums t Axis.all
  .ok (cursorAdvance (respond (sums.flatMap sumBytes) t))

/-- An operation's answer as a step's outcome. -/
def outcomeOf : Except Fault State → Host.Outcome State Fault Refusal
  | .ok s => .next s
  | .error r => .fault r

/-- SAMPLE (43_pipeline.md R161): one Running cycle, rejected while CALIBRATING (R164). -/
def execSample (f : SampleFrame) (s : State) : Host.Outcome State Fault Refusal :=
  match s.phase with
  | .calibrating => .next (raiseCmdError .sampleWhileCalibrating s)
  | .running => outcomeOf (sampleCycle f s)

end Sys2Proof.Machine
end

