-- ==== Sys2Proof/Machine/System.lean ====
section
/-! DEFINITION. STATUS (44_status.md) and the reserved headers (30_encoding.md R78). -/

namespace Sys2Proof.Machine

/-- STATUS (44_status.md R180): answers the STATUS word, high byte first. It writes no register,
is legal in both phases and does not clear `ERR`. -/
def execStatus (s : State) : Host.Outcome State Fault Refusal :=
  .next (respond (wordBytes (statusWord s)) s)

/-- A reserved header (30_encoding.md R78): a 1-byte command that raises `CmdError(3)` and does
nothing else, whatever its value. -/
def execReserved (_h : Byte) (s : State) : Host.Outcome State Fault Refusal :=
  .next (raiseCmdError .reservedOpcode s)

end Sys2Proof.Machine
end

