-- ==== Sys2Proof/Syntax.lean ====
section
/-! DEFINITION. The commands: one constructor for each row of spec/opcode_table.json. -/

namespace Sys2Proof

/-- The four commands of the opcode map (30_encoding.md R72). A reserved header is not a command
of the table: the decoder rejects it by name and the step gives it the meaning of
30_encoding.md R78 (log entry 8). -/
inductive Instr where
  /-- `01 HI LO`: convert one byte pair (40_decoder.md R102). -/
  | decode (hi lo : Byte)
  /-- `02` and a calibration frame: accumulate one probe (41_calibrator.md R120). -/
  | calProbe (frame : CalFrame)
  /-- `03` and a sample frame: one Running cycle (43_pipeline.md R161). -/
  | sample (frame : SampleFrame)
  /-- `04`: read the STATUS word (44_status.md R180). -/
  | status
deriving DecidableEq, Repr

end Sys2Proof
end

