-- ==== Sys2Proof/Machine/Dispatch.lean ====
section
/-! DEFINITION. The meaning of each command, one arm per constructor. -/

namespace Sys2Proof.Machine

/-- The meaning of each command of 30_encoding.md R72. -/
def exec (i : Instr) (s : State) : Host.Outcome State Fault Refusal :=
  match i with
  | .decode hi lo => Sys2Proof.Machine.execDecode hi lo s
  | .calProbe frame => Sys2Proof.Machine.execCalProbe frame s
  | .sample frame => Sys2Proof.Machine.execSample frame s
  | .status => Sys2Proof.Machine.execStatus s

end Sys2Proof.Machine
end

