-- ==== Sys2Proof/WellFormed.lean ====
section
/-! DEFINITION. The checks the spec puts on what is written down before the block sees it: a
command's operands, a frame's byte count, an assembler operand's range, a configuration's
range. Each check has an ill-formed term in Sys2Proof/Tests/Slice0.lean that it refuses. -/

namespace Sys2Proof

/-- Every term of `Instr` is a legal command: "every pair of bytes is a legal operand"
(30_encoding.md R76) and "No payload byte value is reserved" (R78). The types carry the byte
counts, so there is nothing left to refuse. -/
def Instr.wellFormed : Instr → Bool
  | .decode _ _ => true
  | .calProbe _ => true
  | .sample _ => true
  | .status => true

/-- A calibration frame given as bytes: exactly six of them (30_encoding.md R74, R79). -/
def CalFrame.ofBytes? : List Byte → Option CalFrame
  | [gxH, gxL, gyH, gyL, gzH, gzL] => some { gxH, gxL, gyH, gyL, gzH, gzL }
  | _ => none

/-- A sample frame given as bytes: exactly fourteen of them (30_encoding.md R75, R79). -/
def SampleFrame.ofBytes? : List Byte → Option SampleFrame
  | [axH, axL, ayH, ayL, azH, azL, tH, tL, gxH, gxL, gyH, gyL, gzH, gzL] =>
    some { axH, axL, ayH, ayL, azH, azL, tH, tL, gxH, gxL, gyH, gyL, gzH, gzL }
  | _ => none

/-- A 16-bit assembler operand is an integer with −32768 ≤ v ≤ 65535 (30_encoding.md R83). -/
def operandInRange (v : Int) : Bool := decide (-32768 ≤ v ∧ v ≤ 65535)

/-- A byte operand of the assembler is an integer 0..255 (30_encoding.md R81). -/
def byteInRange (v : Int) : Bool := decide (0 ≤ v ∧ v ≤ 255)

/-- A configuration given as two integers: "A configuration with `P_LOG2` outside 0..15 is
refused", and `CAL_EXTRA_PROBE` is 0 or 1 (00_scope.md R6). -/
def Config.ofParams? (pLog2 calExtraProbe : Nat) : Option Config :=
  if h : pLog2 < 16 then
    match calExtraProbe with
    | 0 => some { pLog2 := ⟨pLog2, h⟩, calExtraProbe := false }
    | 1 => some { pLog2 := ⟨pLog2, h⟩, calExtraProbe := true }
    | _ => none
  else none

end Sys2Proof
end

