-- ==== Sys2Proof/Decode.lean ====
section
/-! DEFINITION. The command decoder, total on any bytes, and the encoder (30_encoding.md). -/

namespace Sys2Proof

/-- Why a byte sequence does not begin with a command of the table. -/
inductive DecodeError where
  /-- No header byte has arrived. -/
  | noHeader
  /-- The header `h` has arrived, but not all of its payload (30_encoding.md R79). -/
  | partialCommand (h : Byte)
  /-- The header `h` is reserved: 0x00 or 0x05..0xFF (30_encoding.md R72, R78). -/
  | reservedOpcode (h : Byte)
deriving DecidableEq, Repr

/-- `LEN(H)`, the total length of a command, a function of its header byte alone and total on
every byte value (30_encoding.md R77). -/
def commandLength (h : Byte) : Nat :=
  match h.toNat with
  | 1 => 3
  | 2 => 7
  | 3 => 15
  | _ => 1

/-- The header byte of a command (30_encoding.md R72). -/
def headerOf : Instr → Byte
  | .decode _ _ => 0x01
  | .calProbe _ => 0x02
  | .sample _ => 0x03
  | .status => 0x04

/-- Reads one command from the head of a byte sequence and answers it with the bytes after it
(30_encoding.md R70 to R79): the header is the whole opcode (R71), the payload layouts are those
of R73, R74 and R75. -/
def decodeCommand : List Byte → Except DecodeError (Instr × List Byte)
  | [] => .error .noHeader
  | h :: rest =>
    match h.toNat with
    | 1 =>
      match rest with
      | hi :: lo :: rest => .ok (.decode hi lo, rest)
      | _ => .error (.partialCommand h)
    | 2 =>
      match rest with
      | gxH :: gxL :: gyH :: gyL :: gzH :: gzL :: rest =>
        .ok (.calProbe { gxH, gxL, gyH, gyL, gzH, gzL }, rest)
      | _ => .error (.partialCommand h)
    | 3 =>
      match rest with
      | axH :: axL :: ayH :: ayL :: azH :: azL :: tH :: tL ::
          gxH :: gxL :: gyH :: gyL :: gzH :: gzL :: rest =>
        .ok (.sample { axH, axL, ayH, ayL, azH, azL, tH, tL, gxH, gxL, gyH, gyL, gzH, gzL },
          rest)
      | _ => .error (.partialCommand h)
    | 4 => .ok (.status, rest)
    | _ => .error (.reservedOpcode h)

/-- The bytes of a calibration frame in order (30_encoding.md R74). -/
def CalFrame.bytes (f : CalFrame) : List Byte :=
  [f.gxH, f.gxL, f.gyH, f.gyL, f.gzH, f.gzL]

/-- The bytes of a sample frame in order (30_encoding.md R75). -/
def SampleFrame.bytes (f : SampleFrame) : List Byte :=
  [f.axH, f.axL, f.ayH, f.ayL, f.azH, f.azL, f.tH, f.tL,
    f.gxH, f.gxL, f.gyH, f.gyL, f.gzH, f.gzL]

/-- The payload of a command (30_encoding.md R73 to R75). -/
def payloadOf : Instr → List Byte
  | .decode hi lo => [hi, lo]
  | .calProbe f => f.bytes
  | .sample f => f.bytes
  | .status => []

/-- The bytes of a command: its header, then its payload (30_encoding.md R70). -/
def encode (i : Instr) : List Byte := headerOf i :: payloadOf i

/-- The length of the longest command, SAMPLE (30_encoding.md R72). -/
def maxCommandLength : Nat := 15

/-- The first n bytes of a command word as spec/opcode_table.json numbers its bits: byte k of
the stream is bits 8k+7..8k. -/
def tableBytes : Nat → Nat → List Byte
  | 0, _ => []
  | n + 1, w => BitVec.ofNat 8 w :: tableBytes n (w / 256)

/-- The bytes the host's table word stands for, as the host sends them: as many as its header's
length asks for (R77), every bit above nbits 0. -/
def tableWordBytes (nbits w : Nat) : List Byte :=
  let bytes := tableBytes maxCommandLength (w % 2 ^ nbits)
  match bytes with
  | [] => []
  | h :: _ => bytes.take (commandLength h)

/-- The command the decoder reads from a table word; none where it refuses. -/
def decodeTableWord (nbits w : Nat) : Option Instr :=
  match decodeCommand (tableWordBytes nbits w) with
  | .ok (i, _) => some i
  | .error _ => none

end Sys2Proof
end

