-- ==== Sys2Proof/Machine/Fetch.lean ====
section
/-! DEFINITION. How the block takes its next command from the command stream, byte by byte, with
a reset possible between any two bytes (30_encoding.md R70, R77, R79). -/

namespace Sys2Proof.Machine

/-- What the head of the command stream holds. -/
inductive Fetched where
  /-- Nothing: the block waits for a header. -/
  | idle
  /-- A header and fewer than LEN(H) − 1 payload bytes, and nothing after them. -/
  | incomplete
  /-- A reset, perhaps after a partial command, which it discards; then the rest. -/
  | reset (rest : List HostAction)
  /-- All LEN(H) bytes of a command; then the rest. -/
  | command (bytes : List Byte) (rest : List HostAction)
deriving DecidableEq, Repr

/-- Collects n more bytes of a command whose bytes so far are taken (the latest first). A reset
among them discards the partial command (70_reset_and_hazards.md R210). -/
def fetchPayload : Nat → List Byte → List HostAction → Fetched
  | 0, taken, rest => .command taken.reverse rest
  | _ + 1, _, [] => .incomplete
  | _ + 1, _, .reset :: rest => .reset rest
  | n + 1, taken, .byte b :: rest => fetchPayload n (b :: taken) rest

/-- The next command of the stream: LEN(H) bytes, whatever the phase (30_encoding.md R77). -/
def fetch : List HostAction → Fetched
  | [] => .idle
  | .reset :: rest => .reset rest
  | .byte h :: rest => fetchPayload (commandLength h - 1) [h] rest

/-- The bytes as the host sends them. -/
def sent (bytes : List Byte) : List HostAction := bytes.map .byte

end Sys2Proof.Machine
end

