-- ==== Sys2Proof/Machine/Run.lean ====
section
/-! DEFINITION. Running what was fetched. -/

namespace Sys2Proof.Machine

/-- Runs the command the given bytes encode (30_encoding.md R70, R72); a reserved header raises
`CmdError(3)` (R78). The fetch never hands over a partial command (R79). -/
def runCommand (bytes : List Byte) (s : State) : Host.Outcome State Fault Refusal :=
  match decodeCommand bytes with
  | .ok (i, _) => exec i s
  | .error (.reservedOpcode h) => execReserved h s
  | .error (.partialCommand _) => .fault .awaitingPayload
  | .error .noHeader => .fault .awaitingHeader

/-- One step on what was fetched: a whole command, or a reset (00_scope.md R10). With neither,
no step is enabled (60_exceptions.md R200; log entry 3). -/
def runFetched (f : Fetched) (s : State) : Host.Outcome State Fault Refusal :=
  match f with
  | .idle => .fault .awaitingHeader
  | .incomplete => .fault .awaitingPayload
  | .reset rest => .next (hostReset (withInput rest s))
  | .command bytes rest => runCommand bytes (withInput rest s)

/-- The host puts a whole command at the head of the command stream (60_exceptions.md R200). -/
def sendFirst (bytes : List Byte) (s : State) : State := withInput (sent bytes ++ s.input) s

end Sys2Proof.Machine
end

