-- ==== Sys2Proof/Machine/Step.lean ====
section
/-! DEFINITION. One step of the block: one command, or one reset (00_scope.md R10). -/

namespace Sys2Proof.Machine

/-- Takes the next command, or reset, from the command stream and runs it to its end. -/
def step (s : State) : Host.Outcome State Fault Refusal := runFetched (fetch s.input) s

/-- The state with a table word's command at the head of the command stream, where `step`
fetches its next command: this stands for the host's sending it (log entry 6). -/
def State.withFetchWord (s : State) (nbits w : Nat) : State :=
  sendFirst (tableWordBytes nbits w) s

end Sys2Proof.Machine
end

