-- ==== Sys2Proof/Machine/Assembler.lean ====
section
/-! DEFINITION. The assembler that writes command streams (30_encoding.md R81 to R83): from a
line's text to its bytes. It is a tool of the host, not a part of the block. -/

namespace Sys2Proof.Machine

/-- The syntax that encodes as bytes directly (30_encoding.md R81). -/
inductive AsmCommand where
  | decode (hi lo : Int)
  | calProbe (gx gy gz : Int)
  | sample (ax ay az t gx gy gz : Int)
  | status
  | bytes (bs : List Int)
deriving DecidableEq, Repr

/-- A line of assembly: a command or a pseudo-instruction (30_encoding.md R81, R82). -/
inductive AsmLine where
  | command (c : AsmCommand)
  | calibrateConst (gx gy gz : Int)
  | sampleG (gx gy gz : Int)
  | sampleA (ax ay az : Int)
deriving DecidableEq, Repr

/-- The expansion of a line into commands (30_encoding.md R82). `CALIBRATE_CONST` is `N_PROBES`
copies of its `CAL_PROBE`, so it depends on the configuration. -/
def asmExpand (c : Config) : AsmLine → List AsmCommand
  | .command a => [a]
  | .calibrateConst gx gy gz => List.replicate (nProbes c) (.calProbe gx gy gz)
  | .sampleG gx gy gz => [.sample 0 0 0 0 gx gy gz]
  | .sampleA ax ay az => [.sample ax ay az 0 0 0 0]

/-- A 16-bit operand field (30_encoding.md R83): with u = v mod 65536, the bytes `u[15:8]` and
`u[7:0]`; none where v is no operand. -/
def asmField (v : Int) : Option (Byte × Byte) :=
  if operandInRange v then
    let u := (v % 65536).toNat
    some (BitVec.ofNat 8 (u / 256), BitVec.ofNat 8 u)
  else none

/-- A byte operand (30_encoding.md R81); none outside 0..255 (log entry 9). -/
def asmByte (v : Int) : Option Byte :=
  if byteInRange v then some (BitVec.ofNat 8 v.toNat) else none

/-- The bytes of a list of byte operands, none if one is out of range. -/
def asmBytes : List Int → Option (List Byte)
  | [] => some []
  | v :: vs => do
    let b ← asmByte v
    let bs ← asmBytes vs
    some (b :: bs)

/-- The bytes of one command (30_encoding.md R81); none for an operand out of range (R83). -/
def asmCommand : AsmCommand → Option (List Byte)
  | .decode hi lo => do
    let hi ← asmByte hi
    let lo ← asmByte lo
    some (encode (.decode hi lo))
  | .calProbe gx gy gz => do
    let (gxH, gxL) ← asmField gx
    let (gyH, gyL) ← asmField gy
    let (gzH, gzL) ← asmField gz
    some (encode (.calProbe { gxH, gxL, gyH, gyL, gzH, gzL }))
  | .sample ax ay az t gx gy gz => do
    let (axH, axL) ← asmField ax
    let (ayH, ayL) ← asmField ay
    let (azH, azL) ← asmField az
    let (tH, tL) ← asmField t
    let (gxH, gxL) ← asmField gx
    let (gyH, gyL) ← asmField gy
    let (gzH, gzL) ← asmField gz
    some (encode (.sample
      { axH, axL, ayH, ayL, azH, azL, tH, tL, gxH, gxL, gyH, gyL, gzH, gzL }))
  | .status => some (encode .status)
  | .bytes bs => asmBytes bs

/-- The bytes of a list of commands, none if one of them is an error. -/
def asmCommands : List AsmCommand → Option (List Byte)
  | [] => some []
  | a :: as => do
    let b ← asmCommand a
    let bs ← asmCommands as
    some (b ++ bs)

/-- The bytes of one line (30_encoding.md R81, R82). -/
def asmLine (c : Config) (l : AsmLine) : Option (List Byte) := asmCommands (asmExpand c l)

/-- The text before the first `;` (30_encoding.md R81: `;` starts a comment). -/
def dropComment : List Char → List Char
  | [] => []
  | ch :: cs => if ch = ';' then [] else ch :: dropComment cs

/-- A blank or a tab between the words of a line (log entry 9). -/
def isBlank (ch : Char) : Bool := ch = ' ' || ch = '\t'

/-- Text without the blanks at either end (log entry 9). -/
def trimBlanks (cs : List Char) : List Char :=
  ((cs.dropWhile isBlank).reverse.dropWhile isBlank).reverse

/-- Splits text at each occurrence of a separator. -/
def splitText (sep : Char) : List Char → List (List Char)
  | [] => [[]]
  | ch :: cs =>
    match splitText sep cs with
    | [] => [[]]
    | w :: ws => if ch = sep then [] :: w :: ws else (ch :: w) :: ws

/-- The value of one digit in a base up to 16; either case of a hex digit (log entry 9). -/
def digitValue (base : Nat) (ch : Char) : Option Nat :=
  let n := ch.toNat
  let d :=
    if 48 ≤ n ∧ n ≤ 57 then n - 48
    else if 97 ≤ n ∧ n ≤ 102 then n - 87
    else if 65 ≤ n ∧ n ≤ 70 then n - 55
    else 16
  if d < base then some d else none

/-- The value of a run of digits after those worth `value`. -/
def digitsValue (base : Nat) (value : Nat) : List Char → Option Nat
  | [] => some value
  | ch :: cs => do
    let d ← digitValue base ch
    digitsValue base (value * base + d) cs

/-- An unsigned number: `0x` and hex digits, or decimal digits (30_encoding.md R81). -/
def parseNat : List Char → Option Nat
  | [] => none
  | '0' :: 'x' :: [] => none
  | '0' :: 'x' :: ds => digitsValue 16 0 ds
  | ds => digitsValue 10 0 ds

/-- A number with an optional minus sign (30_encoding.md R81, R83). -/
def parseInt : List Char → Option Int
  | '-' :: ds => do
    let n ← parseNat ds
    some (-(n : Int))
  | ds => do
    let n ← parseNat ds
    some (n : Int)

/-- The operands of a line, separated by commas (30_encoding.md R81). -/
def parseOperands : List (List Char) → Option (List Int)
  | [] => some []
  | w :: ws => do
    let v ← parseInt (trimBlanks w)
    let vs ← parseOperands ws
    some (v :: vs)

/-- A mnemonic with its operands as a line (30_encoding.md R81, R82). Mnemonics are upper case;
any other word or operand count is an error. -/
def lineOf (word : List Char) (ops : List Int) : Option AsmLine :=
  if word = ['D', 'E', 'C', 'O', 'D', 'E'] then
    match ops with
    | [hi, lo] => some (.command (.decode hi lo))
    | _ => none
  else if word = ['C', 'A', 'L', '_', 'P', 'R', 'O', 'B', 'E'] then
    match ops with
    | [gx, gy, gz] => some (.command (.calProbe gx gy gz))
    | _ => none
  else if word = ['S', 'A', 'M', 'P', 'L', 'E'] then
    match ops with
    | [ax, ay, az, t, gx, gy, gz] => some (.command (.sample ax ay az t gx gy gz))
    | _ => none
  else if word = ['S', 'T', 'A', 'T', 'U', 'S'] then
    match ops with
    | [] => some (.command .status)
    | _ => none
  else if word = ['.', 'b', 'y', 't', 'e'] then
    match ops with
    | [] => none
    | bs => some (.command (.bytes bs))
  else if word = ['C', 'A', 'L', 'I', 'B', 'R', 'A', 'T', 'E', '_', 'C', 'O', 'N', 'S', 'T'] then
    match ops with
    | [gx, gy, gz] => some (.calibrateConst gx gy gz)
    | _ => none
  else if word = ['S', 'A', 'M', 'P', 'L', 'E', '_', 'G'] then
    match ops with
    | [gx, gy, gz] => some (.sampleG gx gy gz)
    | _ => none
  else if word = ['S', 'A', 'M', 'P', 'L', 'E', '_', 'A'] then
    match ops with
    | [ax, ay, az] => some (.sampleA ax ay az)
    | _ => none
  else none

/-- One line of text: `some none` for a line that holds no command, none for an error
(30_encoding.md R81). -/
def parseLine (text : List Char) : Option (Option AsmLine) :=
  let text := trimBlanks (dropComment text)
  match text with
  | [] => some none
  | _ =>
    let word := text.takeWhile fun ch => !isBlank ch
    let rest := trimBlanks (text.dropWhile fun ch => !isBlank ch)
    match rest with
    | [] => (lineOf word []).map some
    | _ => do
      let ops ← parseOperands (splitText ',' rest)
      let l ← lineOf word ops
      some (some l)

/-- The bytes of a list of text lines, one command per line; none, and so no bytes, if a line is
an error (30_encoding.md R81, R83). -/
def assembleLines (c : Config) : List (List Char) → Option (List Byte)
  | [] => some []
  | text :: texts => do
    let l ← parseLine text
    let b ← match l with
      | none => some []
      | some l => asmLine c l
    let bs ← assembleLines c texts
    some (b ++ bs)

/-- The bytes of a program text (30_encoding.md R81 to R83). -/
def assemble (c : Config) (text : List Char) : Option (List Byte) :=
  assembleLines c (splitText '\n' text)

end Sys2Proof.Machine
end

