-- ==== Sys2Proof/Safety.lean ====
section
/-! DEFINITION. What the claims are stated in: the views of the buffers, the invariant of the
block, and sequences of commands. -/

namespace Sys2Proof.Machine

/-- `BUF[a][i]` (10_state.md R26, 20_memory.md R51): the signed value of entry 8·a + i. -/
def bufEntry (s : State) (a : Axis) (i : BitVec 3) : Int :=
  (readEntry s.mem (bufAddr a i).toNat).toInt

/-- The sum of the eight entries of a buffer, `Σ BUF[a][i]` (42_filter.md R141). -/
def windowSum (s : State) (a : Axis) : Int := (slots.map (bufEntry s a)).sum

/-- The response of an accepted SAMPLE that leaves the state t: the six mean numerators as
32-bit words (30_encoding.md R80). -/
def sampleResponse (t : State) : List Byte := Axis.all.flatMap fun a => sumBytes (windowSum t a)

/-- No command has been rejected since reset (60_exceptions.md R192): the premise of a claim
about normal operation. -/
def NoError (s : State) : Prop := s.err = 0

/-- `PCNT` against `N_PROBES` in each phase (10_state.md R22). -/
def ProbeCountInv (s : State) : Prop :=
  (s.phase = .calibrating → s.pcnt.toNat < nProbes s.cfg) ∧
    (s.phase = .running → s.pcnt.toNat = nProbes s.cfg)

/-- An accumulator holds a possible sum of n probes (41_calibrator.md R122). -/
def SumOfProbes (n : Nat) (acc : Word) : Prop :=
  -32768 * (n : Int) ≤ acc.toInt ∧ acc.toInt ≤ 32767 * (n : Int)

/-- Each accumulator holds a possible sum of the `PCNT` probes so far (41_calibrator.md R122). -/
def AccumulatorInv (s : State) : Prop :=
  SumOfProbes s.pcnt.toNat s.acc.x ∧ SumOfProbes s.pcnt.toNat s.acc.y ∧
    SumOfProbes s.pcnt.toNat s.acc.z

/-- `OFFSET` holds its reset value while CALIBRATING and the truncated quotients of the kept sums
while RUNNING (10_state.md R23, R24; 41_calibrator.md R121). -/
def OffsetInv (s : State) : Prop :=
  (s.phase = .calibrating → s.offset = { x := 0, y := 0, z := 0 }) ∧
    (s.phase = .running →
      s.offset.x.toInt = tdiv s.acc.x.toInt (divisorP s.cfg) ∧
        s.offset.y.toInt = tdiv s.acc.y.toInt (divisorP s.cfg) ∧
        s.offset.z.toInt = tdiv s.acc.z.toInt (divisorP s.cfg))

/-- The filter is untouched before RUNNING: only SAMPLE writes it (10_state.md R26, R28). -/
def FilterUntouchedInv (s : State) : Prop := s.phase = .calibrating → s.mem = [] ∧ s.cursor = 0

/-- `ERR` holds a cause the block raises, or none (60_exceptions.md R190). -/
def ErrInv (s : State) : Prop := s.err.toNat ≤ 3

/-- Where it exists, `RSUM[a] = Σ BUF[a][i]` (10_state.md R33). -/
def RunningSumInv (s : State) : Prop :=
  ∀ r, s.rsum = some r → ∀ a, (Six.get r a).toInt = windowSum s a

/-- The invariant of the block between commands. -/
structure BlockInv (s : State) : Prop where
  memory : s.mem.wf
  probeCount : ProbeCountInv s
  accumulators : AccumulatorInv s
  offsets : OffsetInv s
  filterUntouched : FilterUntouchedInv s
  errCause : ErrInv s
  runningSums : RunningSumInv s

/-- The commands run one after another (20_memory.md R59), stopping at the first stop. -/
def execAll : List Instr → State → Host.Outcome State Fault Refusal
  | [], s => .next s
  | i :: is, s =>
    match exec i s with
    | .next t => execAll is t
    | .fault r => .fault r
    | .refused r => .refused r

end Sys2Proof.Machine
end

