-- ==== Sys2Proof/Certificates/Slice0/Obligations.lean ====
section
/-! DEFINITION. The statements for the provers, from the numbered rules of spec/. -/

open Sys2Proof Sys2Proof.Machine

/-! ### Encoding and decoding -/

/-- 30_encoding.md sections 1 and 2: a byte sequence decodes to a command and a rest exactly where it
is that command's encoding followed by that rest, for every operand byte. -/
def Obligations.DecodeAndEncodeAgree : Prop :=
  ∀ (bytes : List Byte) (i : Instr) (rest : List Byte),
    decodeCommand bytes = .ok (i, rest) ↔ bytes = encode i ++ rest

/-- 30_encoding.md R77: `LEN` is a function of the header byte alone and total; every command
occupies exactly `LEN` bytes, and a step consumes all of them, accepted or rejected, in either
phase. -/
def Obligations.LengthIsAFunctionOfTheHeader : Prop :=
  (commandLength 1 = 3 ∧ commandLength 2 = 7 ∧ commandLength 3 = 15) ∧
    (∀ h : Byte, h ≠ 1 → h ≠ 2 → h ≠ 3 → commandLength h = 1) ∧
    (∀ i : Instr, (encode i).length = commandLength (headerOf i)) ∧
    ∀ (i : Instr) (s : State) (rest : List HostAction), s.input = sent (encode i) ++ rest →
      ∃ t, step s = .next t ∧ t.input = rest

/-- 30_encoding.md R78: the headers 0x00 and 0x05..0xFF, and no others, are
reserved; each is one byte long and raises `CmdError(3)`, which records 3 if no error stands and
changes nothing else, whatever bytes follow; no payload byte value is reserved. -/
def Obligations.ReservedHeadersRaiseErrorThree : Prop :=
  (∀ (h : Byte) (rest : List Byte),
    decodeCommand (h :: rest) = .error (.reservedOpcode h) ↔ h.toNat = 0 ∨ 5 ≤ h.toNat) ∧
    (∀ (h : Byte) (rest : List HostAction) (s : State),
      (h.toNat = 0 ∨ 5 ≤ h.toNat) → s.input = .byte h :: rest →
        commandLength h = 1 ∧
          step s = .next { s with input := rest, err := if s.err = 0 then 3 else s.err }) ∧
    ∀ i : Instr, decodeCommand (encode i) = .ok (i, [])

/-- 30_encoding.md section 2: one word of each command, written out from the payload tables,
decodes to the command with each byte in its field. -/
def Obligations.WrittenOutWordsDecode : Prop :=
  decodeCommand [0x01, 0x80, 0x01] = .ok (.decode 0x80 0x01, []) ∧
    decodeCommand [0x02, 0x00, 0x0A, 0xFF, 0xFB, 0x7F, 0x03] =
      .ok (.calProbe
        { gxH := 0x00, gxL := 0x0A, gyH := 0xFF, gyL := 0xFB, gzH := 0x7F, gzL := 0x03 }, []) ∧
    decodeCommand [0x03, 0x00, 0x01, 0xFF, 0xFE, 0x80, 0x02, 0x12, 0x34, 0x7F, 0xFD, 0x00, 0x6E,
        0xFF, 0xFB] =
      .ok (.sample
        { axH := 0x00, axL := 0x01, ayH := 0xFF, ayL := 0xFE, azH := 0x80, azL := 0x02,
          tH := 0x12, tL := 0x34, gxH := 0x7F, gxL := 0xFD, gyH := 0x00, gyL := 0x6E,
          gzH := 0xFF, gzL := 0xFB }, []) ∧
    decodeCommand [0x04] = .ok (.status, [])

/-! ### One step of the block -/

/-- Where the bytes at the head of the command stream decode to a well-formed command, the step
consumes exactly them and runs that command. -/
def Obligations.StepRunsTheDecodedCommand : Prop :=
  ∀ (s : State) (bytes : List Byte) (i : Instr) (rest : List HostAction),
    i.wellFormed = true → decodeCommand bytes = .ok (i, []) → s.input = sent bytes ++ rest →
      step s = exec i { s with input := rest }

/-- 30_encoding.md section 4: a command is never executed on fewer bytes than `LEN(H)`; the block
waits. The model's form of waiting for ever is a named stop (log entry 3). -/
def Obligations.PartialCommandIsNeverExecuted : Prop :=
  ∀ (s : State) (h : Byte) (payload : List Byte),
    payload.length + 1 < commandLength h → s.input = sent (h :: payload) →
      step s = .fault .awaitingPayload

/-- 60_exceptions.md section 7: with nothing sent the block has no enabled step. The named stop
is the model's form of it (log entry 3). -/
def Obligations.SilenceEnablesNoStep : Prop :=
  ∀ s : State, step s = .fault .awaitingHeader ↔ s.input = []

/-- 70_reset_and_hazards.md R210: a reset sets every state element to its reset value, discards
a partial command before it, and leaves the configuration and the response stream alone. -/
def Obligations.ResetSetsEveryElementAndDiscardsThePartialCommand : Prop :=
  ∀ (s : State) (pending : List Byte) (rest : List HostAction),
    (pending = [] ∨ ∃ h payload, pending = h :: payload ∧ payload.length + 1 < commandLength h) →
      s.input = sent pending ++ .reset :: rest →
        step s = .next
          { s with
            phase := .calibrating
            pcnt := 0
            acc := { x := 0, y := 0, z := 0 }
            offset := { x := 0, y := 0, z := 0 }
            mem := []
            cursor := 0
            err := 0
            rsum := s.rsum.map fun _ =>
              { accelX := 0, accelY := 0, accelZ := 0, gyroX := 0, gyroY := 0, gyroZ := 0 }
            input := rest } ∧
          ∀ t, step s = .next t → ∀ a i, bufEntry t a i = 0

/-- 20_memory.md section 5: commands take effect in the order sent, each complete before the
next. A stream of encoded commands runs, step by step, as those commands in that order. -/
def Obligations.CommandStreamRunsInOrder : Prop :=
  ∀ (is : List Instr) (s : State) (rest : List HostAction),
    s.input = sent (is.flatMap encode) ++ rest →
      Host.Core.run core is.length s = execAll is { s with input := rest }

/-- 00_scope.md section 5, 60_exceptions.md sections 1 and 7: no command ends in a fault or a
refusal, whatever the state; and a step stops only where the block waits for bytes. -/
def Obligations.OnlyWaitingStopsTheBlock : Prop :=
  (∀ (i : Instr) (s : State), ∃ t, exec i s = .next t) ∧
    ∀ s : State, (∃ t, step s = .next t) ∨ s.input = [] ∨
      ∃ h payload, s.input = sent (h :: payload) ∧ payload.length + 1 < commandLength h

/-! ### DECODE and the Register Codec -/

/-- 40_decoder.md R100: `decode16(h, l)` is the two's-complement value of `(h << 8) | l`, by the
library's reading of 16 bits, by the rule's case split on u = h·256 + l, and as `sext_16(h : l)`. -/
def Obligations.DecodeSixteenIsTwosComplement : Prop :=
  ∀ h l : Byte,
    decode16 h l = (h ++ l : BitVec (8 + 8)).toInt ∧
      decode16 h l = sext 16 (h.toNat * 256 + l.toNat) ∧
      (h.toNat * 256 + l.toNat ≥ 32768 →
        decode16 h l = ((h.toNat * 256 + l.toNat : Nat) : Int) - 65536) ∧
      (h.toNat * 256 + l.toNat < 32768 →
        decode16 h l = ((h.toNat * 256 + l.toNat : Nat) : Int))

/-- 40_decoder.md section 1: `decode16` is a bijection from byte pairs onto −32768..32767. -/
def Obligations.DecodeSixteenIsABijection : Prop :=
  (∀ h l : Byte, -32768 ≤ decode16 h l ∧ decode16 h l ≤ 32767) ∧
    ∀ v : Int, -32768 ≤ v → v ≤ 32767 → ∃! p : Byte × Byte, decode16 p.1 p.2 = v

/-- 40_decoder.md R102: DECODE is `01 HI LO`, completes in either phase, answers bits 15:0 of
`decode16(HI, LO)` high byte first, which are its operand bytes, and writes no state. -/
def Obligations.DecodeAnswersItsValue : Prop :=
  ∀ (hi lo : Byte) (s : State),
    encode (.decode hi lo) = [0x01, hi, lo] ∧
      exec (.decode hi lo) s = .next { s with output := s.output ++ [hi, lo] } ∧
      (hi ++ lo : BitVec (8 + 8)).toInt = decode16 hi lo

/-- 40_decoder.md R105: the temperature bytes of a frame have no effect on the
outcome of SAMPLE, in either phase. -/
def Obligations.TemperatureIsDiscarded : Prop :=
  ∀ (f : SampleFrame) (tH tL : Byte) (s : State),
    exec (.sample { f with tH := tH, tL := tL }) s = exec (.sample f) s

/-! ### CAL_PROBE and the calibrator -/

/-- 41_calibrator.md section 1: a probe that is not the last completes: it adds the three
decoded values to the accumulators and one to the counter, answers nothing, and changes nothing
else. The sums are exact where they fit the register; outside that the value is free
(log entry 4). -/
def Obligations.ProbeAccumulates : Prop :=
  ∀ (f : CalFrame) (s : State),
    s.phase = .calibrating → s.pcnt.toNat + 1 < nProbes s.cfg →
      ∃ t, exec (.calProbe f) s = .next t ∧
        t = { s with acc := t.acc, pcnt := t.pcnt } ∧
        t.pcnt.toNat = s.pcnt.toNat + 1 ∧
        (fitsSigned 32 (s.acc.x.toInt + decode16 f.gxH f.gxL) = true →
          t.acc.x.toInt = s.acc.x.toInt + decode16 f.gxH f.gxL) ∧
        (fitsSigned 32 (s.acc.y.toInt + decode16 f.gyH f.gyL) = true →
          t.acc.y.toInt = s.acc.y.toInt + decode16 f.gyH f.gyL) ∧
        (fitsSigned 32 (s.acc.z.toInt + decode16 f.gzH f.gzL) = true →
          t.acc.z.toInt = s.acc.z.toInt + decode16 f.gzH f.gzL)

/-- 41_calibrator.md R121: the last probe completes the calibration in the same step: it
accumulates, sets each offset to the truncating quotient of its sum by P, enters RUNNING, keeps
the sums, answers nothing, and changes nothing else. -/
def Obligations.LastProbeCompletesCalibration : Prop :=
  ∀ (f : CalFrame) (s : State),
    s.phase = .calibrating → s.pcnt.toNat + 1 = nProbes s.cfg →
      ∃ t, exec (.calProbe f) s = .next t ∧
        t = { s with acc := t.acc, pcnt := t.pcnt, offset := t.offset, phase := .running } ∧
        t.pcnt.toNat = nProbes s.cfg ∧
        (fitsSigned 32 (s.acc.x.toInt + decode16 f.gxH f.gxL) = true →
          t.acc.x.toInt = s.acc.x.toInt + decode16 f.gxH f.gxL) ∧
        (fitsSigned 32 (s.acc.y.toInt + decode16 f.gyH f.gyL) = true →
          t.acc.y.toInt = s.acc.y.toInt + decode16 f.gyH f.gyL) ∧
        (fitsSigned 32 (s.acc.z.toInt + decode16 f.gzH f.gzL) = true →
          t.acc.z.toInt = s.acc.z.toInt + decode16 f.gzH f.gzL) ∧
        t.offset.x.toInt = Int.tdiv t.acc.x.toInt ((2 ^ s.cfg.pLog2.val : Nat) : Int) ∧
        t.offset.y.toInt = Int.tdiv t.acc.y.toInt ((2 ^ s.cfg.pLog2.val : Nat) : Int) ∧
        t.offset.z.toInt = Int.tdiv t.acc.z.toInt ((2 ^ s.cfg.pLog2.val : Nat) : Int)

/-- 41_calibrator.md R125: CAL_PROBE while RUNNING is rejected with `CmdError(2)`: it records 2
if no error stands and changes nothing else, whatever its bytes. -/
def Obligations.ProbeWhileRunningIsRejected : Prop :=
  ∀ (f : CalFrame) (s : State), s.phase = .running →
    exec (.calProbe f) s = .next { s with err := if s.err = 0 then 2 else s.err }

/-- 41_calibrator.md R123: the quotient rounds toward zero at every sign, never to nearest; the
spec's table for P = 4, with the floor beside it. -/
def Obligations.QuotientRoundsTowardZero : Prop :=
  (∀ (n : Int) (p : Nat), 1 ≤ p →
    (0 ≤ n → tdiv n p = Int.fdiv n p) ∧ (n < 0 → tdiv n p = -(Int.fdiv (-n) p))) ∧
    [6, 7, 4, 0, -3, -4, -5, -6].map (fun n : Int => (tdiv n 4, asr n 2)) =
      [(1, 1), (1, 1), (1, 1), (0, 0), (0, -1), (-1, -1), (-1, -2), (-1, -2)]

/-- 41_calibrator.md section 2: the truncating divide by 2^k is a right shift with the bias
2^k − 1 added to negative values, or a shift of the magnitude. -/
def Obligations.ShifterRealisesTheDivide : Prop :=
  ∀ (n : Int) (k : Nat),
    tdivByShift n k = tdiv n (2 ^ k) ∧ tdivBySignMagnitude n k = tdiv n (2 ^ k)

/-- 41_calibrator.md section 2: in every state of the invariant a probe adds exactly, with no
premise on the sums: the accumulators never overflow. -/
def Obligations.AccumulationIsExact : Prop :=
  ∀ (f : CalFrame) (s t : State), BlockInv s → s.phase = .calibrating →
    exec (.calProbe f) s = .next t →
      t.acc.x.toInt = s.acc.x.toInt + decode16 f.gxH f.gxL ∧
        t.acc.y.toInt = s.acc.y.toInt + decode16 f.gyH f.gyL ∧
        t.acc.z.toInt = s.acc.z.toInt + decode16 f.gzH f.gzL

/-- 41_calibrator.md sections 1 and 3: from reset, in every configuration, `N_PROBES` probes of
any bytes leave the exact sums, their truncating quotients by P as offsets, RUNNING, no error,
and no response. That the response stream is empty at reset, so that `output` is empty after the
probes, is the model's choice (log entry 7). -/
def Obligations.CalibrationIsTheTruncatedSum : Prop :=
  ∀ (c : Config) (hasRsum : Bool) (fs : List CalFrame), fs.length = nProbes c →
    ∃ t, execAll (fs.map .calProbe) (State.resetWith c hasRsum) = .next t ∧
      t.phase = .running ∧ t.pcnt.toNat = nProbes c ∧ t.err = 0 ∧ t.output = [] ∧
      t.acc.x.toInt = (fs.map fun f => decode16 f.gxH f.gxL).sum ∧
      t.acc.y.toInt = (fs.map fun f => decode16 f.gyH f.gyL).sum ∧
      t.acc.z.toInt = (fs.map fun f => decode16 f.gzH f.gzL).sum ∧
      t.offset.x.toInt = tdiv (fs.map fun f => decode16 f.gxH f.gxL).sum (divisorP c) ∧
      t.offset.y.toInt = tdiv (fs.map fun f => decode16 f.gyH f.gyL).sum (divisorP c) ∧
      t.offset.z.toInt = tdiv (fs.map fun f => decode16 f.gzH f.gzL).sum (divisorP c)

/-- 41_calibrator.md section 3: probes that are all alike give the offset g exactly with P
probes, and g + tdiv(g, P) with P + 1 probes. -/
def Obligations.ConstantProbesGiveTheOffset : Prop :=
  ∀ (c : Config) (hasRsum : Bool) (f : CalFrame),
    ∃ t, execAll (List.replicate (nProbes c) (.calProbe f)) (State.resetWith c hasRsum) = .next t ∧
      t.phase = .running ∧
      (c.calExtraProbe = false →
        t.offset.x.toInt = decode16 f.gxH f.gxL ∧ t.offset.y.toInt = decode16 f.gyH f.gyL ∧
          t.offset.z.toInt = decode16 f.gzH f.gzL) ∧
      (c.calExtraProbe = true →
        t.offset.x.toInt =
            decode16 f.gxH f.gxL + tdiv (decode16 f.gxH f.gxL) (divisorP c) ∧
          t.offset.y.toInt =
            decode16 f.gyH f.gyL + tdiv (decode16 f.gyH f.gyL) (divisorP c) ∧
          t.offset.z.toInt =
            decode16 f.gzH f.gzL + tdiv (decode16 f.gzH f.gzL) (divisorP c))

/-! ### The buffer space and the filter -/

/-- 20_memory.md R51: `BUF[a][i]` is entry 8·a + i, these are exactly the addresses 0..47, a read
returns what was written last, a write changes no other entry, and addresses 48..63 do not
exist: an access faults, which is the model's form of that (log entry 2). -/
def Obligations.BufferSpaceReadsWhatWasWritten : Prop :=
  (∀ (a : Axis) (i : BitVec 3), (bufAddr a i).toNat = 8 * a.index + i.toNat) ∧
    (∀ addr : BitVec 6, addr.toNat < 48 ↔ ∃ a i, addr = bufAddr a i) ∧
    (∀ (addr : BitVec 6) (v : Int) (s : State), addr.toNat < 48 → s.mem.wf →
      -32768 ≤ v → v ≤ 32767 →
        ∃ t, memWrite addr v s = .ok t ∧ t = { s with mem := t.mem } ∧ t.mem.wf ∧
          memRead addr t = .ok v ∧
          ∀ addr', addr' ≠ addr → memRead addr' t = memRead addr' s) ∧
    ∀ (addr : BitVec 6) (v : Int) (s : State), 48 ≤ addr.toNat →
      memRead addr s = .error .noSuchEntry ∧ memWrite addr v s = .error .noSuchEntry

/-- 42_filter.md R140: `FilterWrite(a, v)` stores v in `BUF[a][CURSOR]` and changes nothing
else. -/
def Obligations.FilterWriteStoresAtTheCursor : Prop :=
  ∀ (a : Axis) (v : Int) (s : State), s.mem.wf → -32768 ≤ v → v ≤ 32767 →
    ∃ t, filterWrite a v s = .ok t ∧ t = { s with mem := t.mem } ∧ t.mem.wf ∧
      ∀ b i, bufEntry t b i = if b = a ∧ i = s.cursor then v else bufEntry s b i

/-- 42_filter.md section 1: `FilterSum(a)` is the exact sum of the eight entries 8·a .. 8·a + 7,
and it lies in −262144..262136, so its 19-bit form is exact. -/
def Obligations.FilterSumIsExactInNineteenBits : Prop :=
  ∀ (a : Axis) (s : State),
    filterSum a s = .ok ((List.range 8).map fun i =>
      (readEntry s.mem (8 * a.index + i)).toInt).sum ∧
      -262144 ≤ windowSum s a ∧ windowSum s a ≤ 262136 ∧
      (narrowSigned 19 (windowSum s a)).toInt = windowSum s a

/-- 42_filter.md section 1: the cursor advances by one modulo 8 on an accepted SAMPLE and at no
other time. -/
def Obligations.CursorAdvancesOnAcceptedSampleOnly : Prop :=
  ∀ (i : Instr) (s t : State), exec i s = .next t →
    t.cursor.toNat =
      match i, s.phase with
      | .sample _, .running => (s.cursor.toNat + 1) % 8
      | _, _ => s.cursor.toNat

/-- 42_filter.md section 3: the window law. From RUNNING with empty buffers and the cursor at 0,
any frames are all accepted; then slot k mod 8 of each buffer holds the k-th value among the
last eight, a slot not yet written holds 0, the cursor is the count modulo 8, and each numerator
is the sum of the last eight values (of all of them, while there are fewer). -/
def Obligations.WindowHoldsTheLastEightValues : Prop :=
  ∀ (fs : List SampleFrame) (s : State), s.phase = .running → s.mem = [] → s.cursor = 0 →
    ∃ t, execAll (fs.map .sample) s = .next t ∧ t.cursor.toNat = fs.length % 8 ∧
      ∀ a : Axis,
        (∀ (k : Nat) (hk : k < fs.length), fs.length ≤ k + 8 →
          bufEntry t a (BitVec.ofNat 3 k) =
            correctedValue (decodeSample fs[k]) s.offset a) ∧
          (∀ i : BitVec 3, fs.length ≤ i.toNat → bufEntry t a i = 0) ∧
          windowSum t a =
            ((fs.map fun f => correctedValue (decodeSample f) s.offset a).drop
              (fs.length - 8)).sum

/-- 42_filter.md R148: a write changes only its own buffer, and a sum reads only its own buffer,
so an axis's numerator after SAMPLE depends on nothing of another axis. -/
def Obligations.AxesAreIndependent : Prop :=
  (∀ (a b : Axis) (v : Int) (s t : State), filterWrite a v s = .ok t → b ≠ a →
    ∀ i, bufEntry t b i = bufEntry s b i) ∧
    (∀ (a : Axis) (s s' : State), (∀ i, bufEntry s a i = bufEntry s' a i) →
      filterSum a s = filterSum a s') ∧
    ∀ (a : Axis) (f f' : SampleFrame) (s s' t t' : State), s.mem.wf → s'.mem.wf →
      s.phase = .running → s'.phase = .running → s.cursor = s'.cursor →
      (∀ i, bufEntry s a i = bufEntry s' a i) →
      correctedValue (decodeSample f) s.offset a = correctedValue (decodeSample f') s'.offset a →
      exec (.sample f) s = .next t → exec (.sample f') s' = .next t' →
        windowSum t a = windowSum t' a

/-- 42_filter.md section 3: a buffer whose eight entries all hold V has the mean V; the mean is
the numerator over 8 and never rounded. -/
def Obligations.ConstantWindowHasThatMean : Prop :=
  ∀ (s : State) (a : Axis) (v : Int),
    (∀ i, bufEntry s a i = v) → meanOf (windowSum s a) = (v : Rat)

/-- 10_state.md section 7: `RSUM` is not observable: with any other running sums, or none, every
command answers the same and leaves the same state but for them. -/
def Obligations.RunningSumsAreUnobservable : Prop :=
  ∀ (i : Instr) (s t : State) (r : Option (Six (BitVec 20))), exec i s = .next t →
    ∃ r', exec i { s with rsum := r } = .next { t with rsum := r' }

/-- 42_filter.md section 2: in every state of the invariant the running sums after an accepted
SAMPLE are the numerators of its response: the incremental method answers what the full sum
does. -/
def Obligations.IncrementalMeanEqualsFullMean : Prop :=
  ∀ (f : SampleFrame) (s : State) (r : Six (BitVec 20)), BlockInv s → s.phase = .running →
    s.rsum = some r →
      ∃ t r', exec (.sample f) s = .next t ∧ t.rsum = some r' ∧
        (∀ a, (Six.get r' a).toInt =
          (Six.get r a).toInt - bufEntry s a s.cursor +
            correctedValue (decodeSample f) s.offset a) ∧
        t.output = s.output ++ Axis.all.flatMap fun a => sumBytes (Six.get r' a).toInt

/-! ### SAMPLE -/

/-- 43_pipeline.md R162: the six values of a cycle: acceleration as decoded; each gyro value less
its offset, wrapped to 16 bits, which is the plain difference where that is in range; the
temperature nowhere. With `OFFSET` in 16-bit range the difference lies in −65535..65535. -/
def Obligations.BiasCorrectionWrapsToSixteenBits : Prop :=
  ∀ (f : SampleFrame) (o : Xyz Word),
    correctedValue (decodeSample f) o .accelX = decode16 f.axH f.axL ∧
      correctedValue (decodeSample f) o .accelY = decode16 f.ayH f.ayL ∧
      correctedValue (decodeSample f) o .accelZ = decode16 f.azH f.azL ∧
      (∀ tH tL, correctedValue (decodeSample { f with tH := tH, tL := tL }) o =
        correctedValue (decodeSample f) o) ∧
      ∀ (a : Axis) (g off : Int),
        ((a = .gyroX ∧ g = decode16 f.gxH f.gxL ∧ off = o.x.toInt) ∨
          (a = .gyroY ∧ g = decode16 f.gyH f.gyL ∧ off = o.y.toInt) ∨
          (a = .gyroZ ∧ g = decode16 f.gzH f.gzL ∧ off = o.z.toInt)) →
          correctedValue (decodeSample f) o a = (BitVec.ofInt 16 (g - off)).toInt ∧
            (-32768 ≤ g - off → g - off ≤ 32767 →
              correctedValue (decodeSample f) o a = g - off) ∧
            (-32768 ≤ off → off ≤ 32767 → -65535 ≤ g - off ∧ g - off ≤ 65535)

/-- 43_pipeline.md section 2: an accepted SAMPLE completes: every buffer takes its axis's value
at the cursor and keeps its other entries; the response is the six numerators of the written
buffers; the cursor advances by one modulo 8; nothing else but the optional running sums
changes. -/
def Obligations.SampleWritesSumsAndAdvances : Prop :=
  ∀ (f : SampleFrame) (s : State), s.phase = .running → s.mem.wf →
    ∃ t, exec (.sample f) s = .next t ∧
      t = { s with mem := t.mem, rsum := t.rsum, cursor := t.cursor, output := t.output } ∧
      t.mem.wf ∧ t.rsum.isSome = s.rsum.isSome ∧
      (∀ a i, bufEntry t a i =
        if i = s.cursor then correctedValue (decodeSample f) s.offset a else bufEntry s a i) ∧
      t.cursor.toNat = (s.cursor.toNat + 1) % 8 ∧
      t.output = s.output ++ sampleResponse t

/-- 43_pipeline.md section 2, 30_encoding.md section 5: the response of an accepted SAMPLE is 24
bytes; the four bytes from 4·a, high byte first, are the two's-complement 32-bit form of the
numerator of axis a after the writes, in every state. -/
def Obligations.SampleAnswersSixBigEndianSums : Prop :=
  ∀ (f : SampleFrame) (s t : State), s.phase = .running → exec (.sample f) s = .next t →
    ∃ response : List Byte, t.output = s.output ++ response ∧ response.length = 24 ∧
      ∀ a : Axis,
        sext 32 (((response.drop (4 * a.index)).take 4).foldl (fun n b => n * 256 + b.toNat) 0) =
          windowSum t a

/-- 43_pipeline.md section 2, 20_memory.md section 3: SAMPLE stores to the six entries
`bufAddr a CURSOR` and to no other byte: every byte outside them reads as before, in every
state. -/
def Obligations.SampleStoresAtTheCursorOnly : Prop :=
  ∀ (f : SampleFrame) (s t : State), exec (.sample f) s = .next t →
    ∀ address : Nat,
      (∀ a : Axis, address ≠ 2 * (bufAddr a s.cursor).toNat ∧
        address ≠ 2 * (bufAddr a s.cursor).toNat + 1) →
        readByte t.mem address = readByte s.mem address

/-- 43_pipeline.md R164: SAMPLE while CALIBRATING is rejected with `CmdError(1)`: it records 1 if
no error stands, writes no buffer, moves no cursor, answers nothing, and does not read
`OFFSET`. -/
def Obligations.SampleWhileCalibratingIsRejected : Prop :=
  ∀ (f : SampleFrame) (s : State), s.phase = .calibrating →
    exec (.sample f) s = .next { s with err := if s.err = 0 then 1 else s.err } ∧
      ∀ (o : Xyz Word) (t : State), exec (.sample f) s = .next t →
        exec (.sample f) { s with offset := o } = .next { t with offset := o }

/-! ### STATUS -/

/-- 44_status.md R180: STATUS is `04`, completes in either phase, answers the four bytes of
`(CAL_EXTRA_PROBE << 28) | (P_LOG2 << 24) | (PCNT << 8) | (ERR << 4) | (CURSOR << 1) | PHASE`
high byte first, and writes no state: reading does not clear `ERR`. -/
def Obligations.StatusAnswersTheStatusWord : Prop :=
  encode .status = [0x04] ∧
    ∀ s : State, ∃ b3 b2 b1 b0 : Byte,
      b3.toNat * 2 ^ 24 + b2.toNat * 2 ^ 16 + b1.toNat * 2 ^ 8 + b0.toNat =
          (if s.cfg.calExtraProbe then 2 ^ 28 else 0) + s.cfg.pLog2.val * 2 ^ 24 +
            s.pcnt.toNat * 2 ^ 8 + s.err.toNat * 2 ^ 4 + s.cursor.toNat * 2 +
            s.phase.bit.toNat ∧
        exec .status s = .next { s with output := s.output ++ [b3, b2, b1, b0] }

/-- 10_state.md section 5: the fields of the STATUS word, the reserved bits 31:29 reading 0. -/
def Obligations.StatusWordFields : Prop :=
  ∀ s : State,
    (statusWord s).extractLsb' 0 1 = s.phase.bit ∧
      (statusWord s).extractLsb' 1 3 = s.cursor ∧
      (statusWord s).extractLsb' 4 4 = s.err ∧
      (statusWord s).extractLsb' 8 16 = s.pcnt ∧
      ((statusWord s).extractLsb' 24 4).toNat = s.cfg.pLog2.val ∧
      (statusWord s).extractLsb' 28 1 = (if s.cfg.calExtraProbe then 1 else 0) ∧
      (statusWord s).extractLsb' 29 3 = 0

/-- 10_state.md section 5, 44_status.md: right after reset the STATUS word holds the
configuration and zeros; in the default configuration it is 0x0A000000. That `State.reset` is a
block of the default configuration is the model's choice (log entry 1). -/
def Obligations.StatusWordAfterReset : Prop :=
  (∀ (c : Config) (hasRsum : Bool), (statusWord (State.resetWith c hasRsum)).toNat =
    (if c.calExtraProbe then 2 ^ 28 else 0) + c.pLog2.val * 2 ^ 24) ∧
    statusWord State.reset = 0x0A000000

/-- 20_memory.md section 3: DECODE and STATUS are idempotent: sent again, they answer the same
bytes and change nothing. -/
def Obligations.DecodeAndStatusAreIdempotent : Prop :=
  ∀ (i : Instr) (s : State), (i = .status ∨ ∃ hi lo, i = .decode hi lo) →
    ∃ response : List Byte,
      exec i s = .next { s with output := s.output ++ response } ∧
        exec i { s with output := s.output ++ response } =
          .next { s with output := s.output ++ response ++ response }

/-! ### Errors -/

/-- 60_exceptions.md R191: `raise CmdError(c)` writes `ERR` if it is 0 and nothing else; a
rejected command consumes its whole frame, and the block goes on with what follows it. -/
def Obligations.RaisingAnErrorKeepsTheFirstCause : Prop :=
  (∀ (c : CmdError) (s : State),
    raiseCmdError c s = { s with err := if s.err = 0 then c.code else s.err }) ∧
    (∀ (f : SampleFrame) (s : State) (rest : List HostAction), s.phase = .calibrating →
      s.input = sent (encode (.sample f)) ++ rest →
        step s = .next (raiseCmdError .sampleWhileCalibrating { s with input := rest })) ∧
    (∀ (f : CalFrame) (s : State) (rest : List HostAction), s.phase = .running →
      s.input = sent (encode (.calProbe f)) ++ rest →
        step s = .next (raiseCmdError .probeWhileRunning { s with input := rest })) ∧
    ∀ (h : Byte) (s : State) (rest : List HostAction), (h.toNat = 0 ∨ 5 ≤ h.toNat) →
      s.input = .byte h :: rest →
        step s = .next (raiseCmdError .reservedOpcode { s with input := rest })

/-- 60_exceptions.md R190: which command raises which cause, in which phase: SAMPLE while
CALIBRATING 1, CAL_PROBE while RUNNING 2, a reserved header always 3; DECODE, STATUS and an
accepted command raise none, so no other code is recorded. -/
def Obligations.EachCauseHasItsCommand : Prop :=
  (CmdError.sampleWhileCalibrating.code = 1 ∧ CmdError.probeWhileRunning.code = 2 ∧
    CmdError.reservedOpcode.code = 3) ∧
    (∀ (i : Instr) (s t : State), exec i s = .next t →
      t.err =
        match i, s.phase with
        | .sample _, .calibrating => if s.err = 0 then 1 else s.err
        | .calProbe _, .running => if s.err = 0 then 2 else s.err
        | _, _ => s.err) ∧
    ∀ (h : Byte) (s : State) (rest : List HostAction), (h.toNat = 0 ∨ 5 ≤ h.toNat) →
      s.input = .byte h :: rest →
        ∃ t, step s = .next t ∧ t.err = if s.err = 0 then 3 else s.err

/-- 60_exceptions.md R192: `ERR` is sticky: a step leaves a nonzero cause as it is, unless it is a
reset, which clears it. -/
def Obligations.OnlyResetClearsTheError : Prop :=
  ∀ s t : State, step s = .next t → s.err ≠ 0 →
    t.err = s.err ∨ (t.err = 0 ∧ HostAction.reset ∈ s.input ∧
      ∃ rest, t = hostReset { s with input := rest })

/-! ### Whole-machine rules -/

/-- The state after reset, in every configuration and with or without the running sums, meets the
invariant. -/
def Obligations.ResetMeetsTheInvariant : Prop :=
  (∀ (c : Config) (hasRsum : Bool), BlockInv (State.resetWith c hasRsum)) ∧ BlockInv State.reset

/-- Every step keeps the invariant: the probe counter agrees with the phase, each accumulator is
a possible sum of that many probes, the offsets are the quotients of the kept sums, the filter is
untouched before RUNNING, the error is a cause the block raises, the running sums are the sums of
the buffers, and the memory is in canonical form. -/
def Obligations.StepKeepsTheInvariant : Prop :=
  ∀ s t : State, BlockInv s → step s = .next t → BlockInv t

/-- 10_state.md section 3: the range of the offsets once written, in every state of the
invariant. -/
def Obligations.OffsetsStayInTheirRange : Prop :=
  ∀ s : State, BlockInv s → s.phase = .running → ∀ o : Word,
    (o = s.offset.x ∨ o = s.offset.y ∨ o = s.offset.z) →
      (s.cfg.calExtraProbe = false → -32768 ≤ o.toInt ∧ o.toInt ≤ 32767) ∧
        (s.cfg.calExtraProbe = true → -65536 ≤ o.toInt ∧ o.toInt ≤ 65534)

/-- 10_state.md section 7, 44_status.md: no command and no reset changes the configuration. That
the state carries it is the model's choice (log entry 1). -/
def Obligations.ConfigurationIsNeverWritten : Prop :=
  ∀ s t : State, step s = .next t → t.cfg = s.cfg

/-- 10_state.md section 3: once RUNNING, no command writes the offsets, the accumulators, the
probe counter or the phase. -/
def Obligations.CalibrationIsImmutableWhileRunning : Prop :=
  ∀ (i : Instr) (s t : State), s.phase = .running → exec i s = .next t →
    t.phase = .running ∧ t.offset = s.offset ∧ t.acc = s.acc ∧ t.pcnt = s.pcnt

/-- 43_pipeline.md section 1: RUNNING is left only by reset. -/
def Obligations.OnlyResetLeavesRunning : Prop :=
  ∀ s t : State, s.phase = .running → step s = .next t → t.phase = .calibrating →
    HostAction.reset ∈ s.input ∧ ∃ rest, t = hostReset { s with input := rest }

/-- 43_pipeline.md section 1: RUNNING is entered only by the CAL_PROBE that makes `PCNT` equal to
`N_PROBES`. -/
def Obligations.OnlyTheLastProbeEntersRunning : Prop :=
  ∀ s t : State, s.phase = .calibrating → s.pcnt.toNat < nProbes s.cfg → step s = .next t →
    t.phase = .running →
      ∃ f rest, s.input = sent (encode (.calProbe f)) ++ rest ∧
        s.pcnt.toNat + 1 = nProbes s.cfg

/-- 10_state.md sections 1 and 4: only an accepted SAMPLE writes the buffers, the cursor and the
running sums. -/
def Obligations.OnlySampleWritesTheFilter : Prop :=
  ∀ (i : Instr) (s t : State), exec i s = .next t →
    ((∃ f, i = .sample f) ∧ s.phase = .running) ∨
      (t.mem = s.mem ∧ t.cursor = s.cursor ∧ t.rsum = s.rsum)

/-- 10_state.md section 1: only an accepted CAL_PROBE writes the accumulators and the counter,
and no command touches what the host has not sent yet. -/
def Obligations.OnlyProbesWriteTheAccumulators : Prop :=
  ∀ (i : Instr) (s t : State), exec i s = .next t →
    t.input = s.input ∧
      (((∃ f, i = .calProbe f) ∧ s.phase = .calibrating) ∨
        (t.acc = s.acc ∧ t.pcnt = s.pcnt ∧ t.offset = s.offset ∧ t.phase = s.phase))

/-- 10_state.md section 3: once RUNNING, nothing reads the accumulators: with any other values in
them every command answers the same and leaves the same state but for them. -/
def Obligations.AccumulatorsAreUnreadWhileRunning : Prop :=
  ∀ (i : Instr) (s t : State) (a : Xyz Word), s.phase = .running → exec i s = .next t →
    exec i { s with acc := a } = .next { t with acc := a }

/-- 10_state.md section 3: no command observes the reset value of the offsets: while CALIBRATING,
with any other offsets every command answers the same and leaves the same state, but for the
offsets until the last probe writes them. -/
def Obligations.OffsetsAreUnreadWhileCalibrating : Prop :=
  ∀ (i : Instr) (s t : State) (o : Xyz Word), s.phase = .calibrating → exec i s = .next t →
    exec i { s with offset := o } =
      .next { t with offset := if t.phase = .running then t.offset else o }

/-! ### Configuration and assembler -/

/-- 00_scope.md section 4: a configuration is admitted exactly where `P_LOG2` is in 0..15 and
`CAL_EXTRA_PROBE` is 0 or 1, and has those values; P is 2^`P_LOG2` ≥ 1 and `N_PROBES` is
P + `CAL_EXTRA_PROBE` ≤ 32769. -/
def Obligations.ConfigurationsOutsideTheRangeAreRefused : Prop :=
  (∀ p e : Nat, (Config.ofParams? p e).isSome = true ↔ p ≤ 15 ∧ e ≤ 1) ∧
    ∀ (p e : Nat) (c : Config), Config.ofParams? p e = some c →
      c.pLog2.val = p ∧ divisorP c = 2 ^ p ∧ 1 ≤ divisorP c ∧ nProbes c = 2 ^ p + e ∧
        nProbes c ≤ 32769

/-- 30_encoding.md section 6: an operand field of the assembler: for −32768 ≤ v ≤ 65535 the two
bytes of v mod 65536, high byte first, which decode to wrap_16(v); for any other v no bytes. -/
def Obligations.AssembledFieldDecodesToItsValue : Prop :=
  ∀ v : Int,
    (-32768 ≤ v ∧ v ≤ 65535 → ∃ h l, asmField v = some (h, l) ∧
      ((h.toNat * 256 + l.toNat : Nat) : Int) = v % 65536 ∧ decode16 h l = wrap 16 v) ∧
      (v < -32768 ∨ 65535 < v → asmField v = none)

/-- 30_encoding.md section 6: every command of the assembler. A line that holds one command gives
that command's bytes. CAL_PROBE and SAMPLE with operands in −32768..65535 give bytes that the
decoder reads as the command, each operand wrapped to 16 bits; DECODE with operands in 0..255 gives
`01 hi lo`, which decodes to DECODE of those bytes; STATUS gives `04`, which decodes to STATUS;
`.byte` gives its operands in 0..255 verbatim. An operand outside its range gives no bytes: for a
16-bit field that is the spec's assembler error, for a byte operand it is the model's choice (log
entry 9). -/
def Obligations.AssembledCommandsDecode : Prop :=
  (∀ (c : Config) (a : AsmCommand), asmLine c (.command a) = asmCommand a) ∧
    (∀ gx gy gz : Int, (∀ v ∈ [gx, gy, gz], operandInRange v = true) →
      ∃ bytes f, asmCommand (.calProbe gx gy gz) = some bytes ∧
        decodeCommand bytes = .ok (.calProbe f, []) ∧
        decodeGyro f = { x := wrap 16 gx, y := wrap 16 gy, z := wrap 16 gz }) ∧
    (∀ gx gy gz : Int, (∃ v ∈ [gx, gy, gz], operandInRange v = false) →
      asmCommand (.calProbe gx gy gz) = none) ∧
    (∀ ax ay az t gx gy gz : Int,
      (∀ v ∈ [ax, ay, az, t, gx, gy, gz], operandInRange v = true) →
        ∃ bytes f, asmCommand (.sample ax ay az t gx gy gz) = some bytes ∧
          decodeCommand bytes = .ok (.sample f, []) ∧
          decodeSample f =
            { accel := { x := wrap 16 ax, y := wrap 16 ay, z := wrap 16 az }
              temperature := wrap 16 t
              gyro := { x := wrap 16 gx, y := wrap 16 gy, z := wrap 16 gz } }) ∧
    (∀ ax ay az t gx gy gz : Int,
      (∃ v ∈ [ax, ay, az, t, gx, gy, gz], operandInRange v = false) →
        asmCommand (.sample ax ay az t gx gy gz) = none) ∧
    (∀ hi lo : Int, 0 ≤ hi ∧ hi ≤ 255 → 0 ≤ lo ∧ lo ≤ 255 →
      ∃ h l : Byte, (h.toNat : Int) = hi ∧ (l.toNat : Int) = lo ∧
        asmCommand (.decode hi lo) = some [0x01, h, l] ∧
        decodeCommand [0x01, h, l] = .ok (.decode h l, [])) ∧
    (∀ hi lo : Int, ¬ ((0 ≤ hi ∧ hi ≤ 255) ∧ 0 ≤ lo ∧ lo ≤ 255) →
      asmCommand (.decode hi lo) = none) ∧
    (asmCommand .status = some [0x04] ∧ decodeCommand [0x04] = .ok (.status, [])) ∧
    (∀ vs : List Int, (∀ v ∈ vs, 0 ≤ v ∧ v ≤ 255) →
      ∃ bytes : List Byte, asmCommand (.bytes vs) = some bytes ∧
        bytes.map (fun b => (b.toNat : Int)) = vs) ∧
    ∀ vs : List Int, (∃ v ∈ vs, ¬ (0 ≤ v ∧ v ≤ 255)) → asmCommand (.bytes vs) = none

/-- 30_encoding.md section 6: the pseudo-instructions: `CALIBRATE_CONST` is `N_PROBES` copies of its
CAL_PROBE, SAMPLE_G and SAMPLE_A are a SAMPLE with zeros in the other fields. -/
def Obligations.PseudoInstructionsExpand : Prop :=
  (∀ (c : Config) (gx gy gz : Int),
    asmLine c (.calibrateConst gx gy gz) =
      (asmCommand (.calProbe gx gy gz)).map fun b => (List.replicate (nProbes c) b).flatten) ∧
    (∀ (c : Config) (gx gy gz : Int),
      asmLine c (.sampleG gx gy gz) = asmCommand (.sample 0 0 0 0 gx gy gz)) ∧
    ∀ (c : Config) (ax ay az : Int),
      asmLine c (.sampleA ax ay az) = asmCommand (.sample ax ay az 0 0 0 0)
end

