-- ==== Sys2Proof/Laws/State.lean ====
section
/-! SUPPORT. One lemma per field per update of the state, so that no later proof unfolds a record
update. -/

namespace Sys2Proof.Machine

@[simp] theorem respond_cfg (bytes : List Byte) (s : State) : (respond bytes s).cfg = s.cfg := rfl
@[simp] theorem respond_phase (bytes : List Byte) (s : State) :
    (respond bytes s).phase = s.phase := rfl
@[simp] theorem respond_pcnt (bytes : List Byte) (s : State) :
    (respond bytes s).pcnt = s.pcnt := rfl
@[simp] theorem respond_acc (bytes : List Byte) (s : State) : (respond bytes s).acc = s.acc := rfl
@[simp] theorem respond_offset (bytes : List Byte) (s : State) :
    (respond bytes s).offset = s.offset := rfl
@[simp] theorem respond_mem (bytes : List Byte) (s : State) : (respond bytes s).mem = s.mem := rfl
@[simp] theorem respond_cursor (bytes : List Byte) (s : State) :
    (respond bytes s).cursor = s.cursor := rfl
@[simp] theorem respond_err (bytes : List Byte) (s : State) : (respond bytes s).err = s.err := rfl
@[simp] theorem respond_rsum (bytes : List Byte) (s : State) :
    (respond bytes s).rsum = s.rsum := rfl
@[simp] theorem respond_input (bytes : List Byte) (s : State) :
    (respond bytes s).input = s.input := rfl
@[simp] theorem respond_output (bytes : List Byte) (s : State) :
    (respond bytes s).output = s.output ++ bytes := rfl

@[simp] theorem withInput_cfg (rest : List HostAction) (s : State) :
    (withInput rest s).cfg = s.cfg := rfl
@[simp] theorem withInput_phase (rest : List HostAction) (s : State) :
    (withInput rest s).phase = s.phase := rfl
@[simp] theorem withInput_pcnt (rest : List HostAction) (s : State) :
    (withInput rest s).pcnt = s.pcnt := rfl
@[simp] theorem withInput_acc (rest : List HostAction) (s : State) :
    (withInput rest s).acc = s.acc := rfl
@[simp] theorem withInput_offset (rest : List HostAction) (s : State) :
    (withInput rest s).offset = s.offset := rfl
@[simp] theorem withInput_mem (rest : List HostAction) (s : State) :
    (withInput rest s).mem = s.mem := rfl
@[simp] theorem withInput_cursor (rest : List HostAction) (s : State) :
    (withInput rest s).cursor = s.cursor := rfl
@[simp] theorem withInput_err (rest : List HostAction) (s : State) :
    (withInput rest s).err = s.err := rfl
@[simp] theorem withInput_rsum (rest : List HostAction) (s : State) :
    (withInput rest s).rsum = s.rsum := rfl
@[simp] theorem withInput_input (rest : List HostAction) (s : State) :
    (withInput rest s).input = rest := rfl
@[simp] theorem withInput_output (rest : List HostAction) (s : State) :
    (withInput rest s).output = s.output := rfl

@[simp] theorem raiseCmdError_cfg (c : CmdError) (s : State) :
    (raiseCmdError c s).cfg = s.cfg := rfl
@[simp] theorem raiseCmdError_phase (c : CmdError) (s : State) :
    (raiseCmdError c s).phase = s.phase := rfl
@[simp] theorem raiseCmdError_pcnt (c : CmdError) (s : State) :
    (raiseCmdError c s).pcnt = s.pcnt := rfl
@[simp] theorem raiseCmdError_acc (c : CmdError) (s : State) :
    (raiseCmdError c s).acc = s.acc := rfl
@[simp] theorem raiseCmdError_offset (c : CmdError) (s : State) :
    (raiseCmdError c s).offset = s.offset := rfl
@[simp] theorem raiseCmdError_mem (c : CmdError) (s : State) :
    (raiseCmdError c s).mem = s.mem := rfl
@[simp] theorem raiseCmdError_cursor (c : CmdError) (s : State) :
    (raiseCmdError c s).cursor = s.cursor := rfl
@[simp] theorem raiseCmdError_err (c : CmdError) (s : State) :
    (raiseCmdError c s).err = stickyErr s.err c := rfl
@[simp] theorem raiseCmdError_rsum (c : CmdError) (s : State) :
    (raiseCmdError c s).rsum = s.rsum := rfl
@[simp] theorem raiseCmdError_input (c : CmdError) (s : State) :
    (raiseCmdError c s).input = s.input := rfl
@[simp] theorem raiseCmdError_output (c : CmdError) (s : State) :
    (raiseCmdError c s).output = s.output := rfl

@[simp] theorem hostReset_cfg (s : State) : (hostReset s).cfg = s.cfg := rfl
@[simp] theorem hostReset_phase (s : State) : (hostReset s).phase = .calibrating := rfl
@[simp] theorem hostReset_pcnt (s : State) : (hostReset s).pcnt = 0 := rfl
@[simp] theorem hostReset_acc (s : State) : (hostReset s).acc = { x := 0, y := 0, z := 0 } := rfl
@[simp] theorem hostReset_offset (s : State) :
    (hostReset s).offset = { x := 0, y := 0, z := 0 } := rfl
@[simp] theorem hostReset_mem (s : State) : (hostReset s).mem = [] := rfl
@[simp] theorem hostReset_cursor (s : State) : (hostReset s).cursor = 0 := rfl
@[simp] theorem hostReset_err (s : State) : (hostReset s).err = 0 := rfl
@[simp] theorem hostReset_rsum (s : State) :
    (hostReset s).rsum = s.rsum.map fun _ => rsumZero := rfl
@[simp] theorem hostReset_input (s : State) : (hostReset s).input = s.input := rfl
@[simp] theorem hostReset_output (s : State) : (hostReset s).output = s.output := rfl

@[simp] theorem cursorAdvance_cfg (s : State) : (cursorAdvance s).cfg = s.cfg := rfl
@[simp] theorem cursorAdvance_phase (s : State) : (cursorAdvance s).phase = s.phase := rfl
@[simp] theorem cursorAdvance_pcnt (s : State) : (cursorAdvance s).pcnt = s.pcnt := rfl
@[simp] theorem cursorAdvance_acc (s : State) : (cursorAdvance s).acc = s.acc := rfl
@[simp] theorem cursorAdvance_offset (s : State) : (cursorAdvance s).offset = s.offset := rfl
@[simp] theorem cursorAdvance_mem (s : State) : (cursorAdvance s).mem = s.mem := rfl
@[simp] theorem cursorAdvance_cursor (s : State) :
    (cursorAdvance s).cursor = BitVec.ofNat 3 ((s.cursor.toNat + 1) % 8) := rfl
@[simp] theorem cursorAdvance_err (s : State) : (cursorAdvance s).err = s.err := rfl
@[simp] theorem cursorAdvance_rsum (s : State) : (cursorAdvance s).rsum = s.rsum := rfl
@[simp] theorem cursorAdvance_input (s : State) : (cursorAdvance s).input = s.input := rfl
@[simp] theorem cursorAdvance_output (s : State) : (cursorAdvance s).output = s.output := rfl

@[simp] theorem accumulate_cfg (g : Xyz Int) (s : State) : (accumulate g s).cfg = s.cfg := rfl
@[simp] theorem accumulate_phase (g : Xyz Int) (s : State) : (accumulate g s).phase = s.phase := rfl
@[simp] theorem accumulate_pcnt (g : Xyz Int) (s : State) :
    (accumulate g s).pcnt = narrowUnsigned 16 (s.pcnt.toNat + 1) := rfl
@[simp] theorem accumulate_acc (g : Xyz Int) (s : State) :
    (accumulate g s).acc = Xyz.map₂ (fun a x => narrowSigned 32 (a.toInt + x)) s.acc g := rfl
@[simp] theorem accumulate_offset (g : Xyz Int) (s : State) :
    (accumulate g s).offset = s.offset := rfl
@[simp] theorem accumulate_mem (g : Xyz Int) (s : State) : (accumulate g s).mem = s.mem := rfl
@[simp] theorem accumulate_cursor (g : Xyz Int) (s : State) :
    (accumulate g s).cursor = s.cursor := rfl
@[simp] theorem accumulate_err (g : Xyz Int) (s : State) : (accumulate g s).err = s.err := rfl
@[simp] theorem accumulate_rsum (g : Xyz Int) (s : State) : (accumulate g s).rsum = s.rsum := rfl
@[simp] theorem accumulate_input (g : Xyz Int) (s : State) : (accumulate g s).input = s.input := rfl
@[simp] theorem accumulate_output (g : Xyz Int) (s : State) :
    (accumulate g s).output = s.output := rfl

@[simp] theorem calComplete_cfg (s : State) : (calComplete s).cfg = s.cfg := rfl
@[simp] theorem calComplete_phase (s : State) : (calComplete s).phase = .running := rfl
@[simp] theorem calComplete_pcnt (s : State) : (calComplete s).pcnt = s.pcnt := rfl
@[simp] theorem calComplete_acc (s : State) : (calComplete s).acc = s.acc := rfl
@[simp] theorem calComplete_offset (s : State) :
    (calComplete s).offset = Xyz.map (fun a => narrowSigned 32 (tdiv a.toInt (divisorP s.cfg))) s.acc := rfl
@[simp] theorem calComplete_mem (s : State) : (calComplete s).mem = s.mem := rfl
@[simp] theorem calComplete_cursor (s : State) : (calComplete s).cursor = s.cursor := rfl
@[simp] theorem calComplete_err (s : State) : (calComplete s).err = s.err := rfl
@[simp] theorem calComplete_rsum (s : State) : (calComplete s).rsum = s.rsum := rfl
@[simp] theorem calComplete_input (s : State) : (calComplete s).input = s.input := rfl
@[simp] theorem calComplete_output (s : State) : (calComplete s).output = s.output := rfl

end Sys2Proof.Machine
end

