-- ==== Sys2Proof/Laws/Arith.lean ====
section
/-! SUPPORT. The integer notation of 00_scope.md R8 against the library's own, and what a
register holds after a write. -/

namespace Sys2Proof.Machine

theorem decode16_eq_toInt (h l : Byte) : decode16 h l = (h ++ l : BitVec (8 + 8)).toInt := by
  have := h.isLt
  have := l.isLt
  have hn : (h ++ l : BitVec (8 + 8)).toNat = h.toNat * 256 + l.toNat := by
    rw [BitVec.toNat_append, Nat.shiftLeft_eq, mul_comm, ← Nat.two_pow_add_eq_or_of_lt l.isLt,
      mul_comm]
  rw [BitVec.toInt_eq_toNat_cond, hn, decode16]
  split <;> split <;> omega

theorem high_of_append (h l : Byte) : (h ++ l : BitVec (8 + 8)).extractLsb' 8 8 = h := by
  apply BitVec.eq_of_toNat_eq
  have := l.isLt
  have := h.isLt
  rw [BitVec.extractLsb'_toNat, BitVec.toNat_append, Nat.shiftLeft_eq, mul_comm,
    ← Nat.two_pow_add_eq_or_of_lt l.isLt, Nat.shiftRight_eq_div_pow]
  omega

theorem low_of_append (h l : Byte) : (h ++ l : BitVec (8 + 8)).extractLsb' 0 8 = l := by
  apply BitVec.eq_of_toNat_eq
  have := l.isLt
  have := h.isLt
  rw [BitVec.extractLsb'_toNat, BitVec.toNat_append, Nat.shiftLeft_eq, mul_comm,
    ← Nat.two_pow_add_eq_or_of_lt l.isLt, Nat.shiftRight_eq_div_pow]
  omega

theorem decode16_range (h l : Byte) : -32768 ≤ decode16 h l ∧ decode16 h l ≤ 32767 := by
  have := h.isLt
  have := l.isLt
  simp only [decode16]
  split <;> omega

/-- A register reads back the value written to it, if the value is in its range. -/
theorem toInt_narrowSigned {n : Nat} {v : Int} (h : fitsSigned n v = true) (hn : 0 < n) :
    (narrowSigned n v).toInt = v := by
  have hv : -((2 ^ (n - 1) : Nat) : Int) ≤ v ∧ v < ((2 ^ (n - 1) : Nat) : Int) := by
    simpa [fitsSigned] using h
  rw [narrowSigned, if_pos h, BitVec.toInt_ofInt]
  have h2 : (2 ^ n : Nat) = 2 * 2 ^ (n - 1) := by
    obtain ⟨m, rfl⟩ : ∃ m, n = m + 1 := ⟨n - 1, by omega⟩
    rw [Nat.add_sub_cancel, pow_succ, mul_comm]
  rw [Int.bmod_eq_of_le] <;> omega

theorem narrowSigned_toInt {n : Nat} (v : BitVec n) (hn : 0 < n) :
    narrowSigned n v.toInt = v := by
  have h1 := BitVec.two_mul_toInt_lt (x := v)
  have h2 := BitVec.le_two_mul_toInt (x := v)
  have h3 : (2 ^ n : Int) = 2 * ((2 ^ (n - 1) : Nat) : Int) := by
    obtain ⟨m, rfl⟩ : ∃ m, n = m + 1 := ⟨n - 1, by omega⟩
    rw [Nat.add_sub_cancel, pow_succ]
    push_cast
    ring
  have hf : fitsSigned n v.toInt = true := by
    simp only [fitsSigned, decide_eq_true_eq]
    omega
  rw [narrowSigned, if_pos hf, BitVec.ofInt_toInt]

theorem toNat_narrowUnsigned {n v : Nat} (h : v < 2 ^ n) : (narrowUnsigned n v).toNat = v := by
  rw [narrowUnsigned, if_pos (by simpa [fitsUnsigned] using h), BitVec.toNat_ofNat,
    Nat.mod_eq_of_lt h]

theorem narrow_decode16 (h l : Byte) : narrowSigned 16 (decode16 h l) = h ++ l := by
  rw [decode16_eq_toInt]
  exact narrowSigned_toInt (h ++ l) (by omega)

/-- `wrap_16` is the two's-complement truncation. -/
theorem wrap16_eq (v : Int) : wrap 16 v = (BitVec.ofInt 16 v).toInt := by
  rw [BitVec.toInt_ofInt, Int.bmod_def, wrap, sext]
  norm_num
  split <;> omega

theorem wrap16_range (v : Int) : -32768 ≤ wrap 16 v ∧ wrap 16 v ≤ 32767 := by
  have := BitVec.two_mul_toInt_lt (x := BitVec.ofInt 16 v)
  have := BitVec.le_two_mul_toInt (x := BitVec.ofInt 16 v)
  rw [wrap16_eq]
  omega

theorem tdiv_eq (n : Int) (d : Nat) : tdiv n d = Int.tdiv n d := by
  rcases n with m | m
  · rcases Nat.eq_zero_or_pos m with rfl | hm
    · simp [tdiv]
    · rw [tdiv, Int.ofNat_eq_natCast, Int.sign_natCast_of_ne_zero (by omega), one_mul,
        Int.natAbs_natCast]
      rfl
  · rw [tdiv, Int.sign_negSucc, Int.natAbs_negSucc, neg_one_mul]
    rfl

end Sys2Proof.Machine
end

