-- ==== Sys2Proof/Laws/Assembler.lean ====
section
/-! SUPPORT. What the assembler's operand fields and byte lists can do. -/

namespace Sys2Proof.Machine

/-- A byte operand gives the byte of its value, and only that. -/
theorem asmByte_eq_some {v : Int} {b : Byte} : asmByte v = some b ↔ (b.toNat : Int) = v := by
  have := b.isLt
  rw [asmByte]
  by_cases hv : byteInRange v = true
  · have hr : 0 ≤ v ∧ v ≤ 255 := by simpa [byteInRange] using hv
    rw [if_pos hv, Option.some.injEq, ← BitVec.toNat_inj, BitVec.toNat_ofNat]
    omega
  · have hr : ¬ (0 ≤ v ∧ v ≤ 255) := by simpa [byteInRange] using hv
    rw [if_neg hv]
    exact ⟨nofun, fun h => absurd ⟨by omega, by omega⟩ hr⟩

/-- A byte operand outside 0..255 gives none (log entry 9). -/
theorem asmByte_eq_none {v : Int} : asmByte v = none ↔ ¬ (0 ≤ v ∧ v ≤ 255) := by
  rw [asmByte, byteInRange]
  simp

/-- A 16-bit operand field is missing exactly where its operand is out of range. -/
theorem asmField_eq_none {v : Int} : asmField v = none ↔ operandInRange v = false := by
  rw [asmField]
  simp

/-- The bytes of a list, first operand first. -/
theorem asmBytes_cons (v : Int) (vs : List Int) :
    asmBytes (v :: vs) = (asmByte v).bind fun b => (asmBytes vs).map (b :: ·) := by
  rw [asmBytes]
  cases asmByte v <;> cases asmBytes vs <;> rfl

/-- The bytes of a list of commands, first command first. -/
theorem asmCommands_cons (a : AsmCommand) (as : List AsmCommand) :
    asmCommands (a :: as) = (asmCommand a).bind fun b => (asmCommands as).map (b ++ ·) := by
  rw [asmCommands]
  cases asmCommand a <;> cases asmCommands as <;> rfl

end Sys2Proof.Machine
end

