-- ==== Sys2Proof/Laws/Memory.lean ====
section
/-! SUPPORT. The buffer space: read after write, and every memory operation keeps the canonical
form. -/

namespace Sys2Proof.Machine

/-- The byte addresses of a memory rise strictly. -/
def Sorted (m : Memory) : Prop := m.Pairwise fun c d => c.1 < d.1

theorem readByte_absent {m : Memory} {a : Nat} (h : ∀ c ∈ m, a < c.1) :
    readByte m a = unlistedByte := by
  induction m with
  | nil => rfl
  | cons c m ih =>
    obtain ⟨k, b⟩ := c
    have hk : a < k := h (k, b) (by simp)
    rw [readByte, if_neg (by omega), ih fun c hc => h c (by simp [hc])]

theorem readByte_writeByte_same {m : Memory} (hm : Sorted m) (a : Nat) (b : Byte) :
    readByte (writeByte m a b) a = b := by
  induction m with
  | nil => by_cases hb : b = unlistedByte <;> simp [writeByte, readByte, hb]
  | cons c m ih =>
    obtain ⟨k, c⟩ := c
    obtain ⟨hk, hm⟩ := List.pairwise_cons.1 hm
    rw [writeByte]
    split
    · next hlt =>
      split
      · next hb =>
        rw [hb]
        refine readByte_absent fun d hd => ?_
        rcases List.mem_cons.1 hd with rfl | hd
        · exact hlt
        · exact lt_trans hlt (hk d hd)
      · simp [readByte]
    · split
      · next hak =>
        subst hak
        split
        · next hb => rw [hb]; exact readByte_absent hk
        · simp [readByte]
      · next hne => rw [readByte, if_neg (Ne.symm hne), ih hm]

theorem readByte_writeByte_other (m : Memory) {a a' : Nat} (b : Byte) (h : a' ≠ a) :
    readByte (writeByte m a b) a' = readByte m a' := by
  induction m with
  | nil => by_cases hb : b = unlistedByte <;> simp [writeByte, readByte, hb, h.symm]
  | cons c m ih =>
    obtain ⟨k, c⟩ := c
    rw [writeByte]
    split
    · split
      · rfl
      · rw [readByte, if_neg h.symm]
    · split
      · next hak =>
        subst hak
        split <;> simp [readByte, h.symm]
      · simp only [readByte, ih]

/-- The keys of a memory after a write are the old ones and perhaps the new one. -/
theorem mem_writeByte {m : Memory} {a : Nat} {b : Byte} {c : Host.Cell}
    (h : c ∈ writeByte m a b) : c ∈ m ∨ (c = (a, b) ∧ b ≠ unlistedByte) := by
  induction m with
  | nil =>
    rw [writeByte] at h
    split at h
    · exact .inl h
    · next hb => exact .inr ⟨by simpa using h, hb⟩
  | cons d m ih =>
    obtain ⟨k, d⟩ := d
    rw [writeByte] at h
    split at h
    · split at h
      · exact .inl h
      · next hb =>
        rcases List.mem_cons.1 h with h | h
        · exact .inr ⟨h, hb⟩
        · exact .inl h
    · split at h
      · split at h
        · exact .inl (by simp [h])
        · next hb =>
          rcases List.mem_cons.1 h with h | h
          · exact .inr ⟨h, hb⟩
          · exact .inl (by simp [h])
      · rcases List.mem_cons.1 h with h | h
        · exact .inl (by simp [h])
        · rcases ih h with h | h
          · exact .inl (by simp [h])
          · exact .inr h

theorem sorted_writeByte {m : Memory} (hm : Sorted m) (a : Nat) (b : Byte) :
    Sorted (writeByte m a b) := by
  induction m with
  | nil => rw [writeByte]; split <;> simp [Sorted]
  | cons c m ih =>
    obtain ⟨k, c⟩ := c
    obtain ⟨hk, hs⟩ := List.pairwise_cons.1 hm
    rw [writeByte]
    split
    · next hlt =>
      split
      · exact hm
      · refine List.pairwise_cons.2 ⟨fun d hd => ?_, hm⟩
        rcases List.mem_cons.1 hd with rfl | hd
        · exact hlt
        · exact lt_trans hlt (hk d hd)
    · next hge =>
      split
      · next hak =>
        subst hak
        split
        · exact hs
        · exact List.pairwise_cons.2 ⟨hk, hs⟩
      · next hne =>
        refine List.pairwise_cons.2 ⟨fun d hd => ?_, ih hs⟩
        rcases mem_writeByte hd with hd | ⟨rfl, -⟩
        · exact hk d hd
        · show k < a
          omega

/-- A write inside the buffer space keeps the canonical form. -/
theorem writeByte_wf {m : Memory} (hm : m.wf) {a : Nat} (ha : a < 2 * bufferEntries) (b : Byte) :
    (writeByte m a b).wf := by
  refine ⟨sorted_writeByte hm.1 a b, fun c hc => ?_⟩
  rcases mem_writeByte hc with hc | ⟨rfl, hb⟩
  · exact hm.2 c hc
  · exact ⟨ha, hb⟩

/-- A 16-bit value is its high byte followed by its low byte. -/
theorem half_of_bytes (v : Half) : v.extractLsb' 8 8 ++ v.extractLsb' 0 8 = v := by
  apply BitVec.eq_of_toNat_eq
  have := v.isLt
  rw [BitVec.toNat_append, BitVec.extractLsb'_toNat, BitVec.extractLsb'_toNat,
    Nat.shiftLeft_eq, mul_comm, ← Nat.two_pow_add_eq_or_of_lt (Nat.mod_lt _ (by norm_num)),
    Nat.shiftRight_eq_div_pow, Nat.shiftRight_eq_div_pow]
  omega

theorem readEntry_writeEntry_same {m : Memory} (hm : Sorted m) (e : Nat) (v : Half) :
    readEntry (writeEntry m e v) e = v := by
  rw [readEntry, writeEntry, readByte_writeByte_other _ _ (by omega),
    readByte_writeByte_same hm, readByte_writeByte_same (sorted_writeByte hm _ _)]
  exact half_of_bytes v

theorem readEntry_writeEntry_other (m : Memory) {e e' : Nat} (v : Half) (h : e' ≠ e) :
    readEntry (writeEntry m e v) e' = readEntry m e' := by
  rw [readEntry, writeEntry, readByte_writeByte_other _ _ (by omega),
    readByte_writeByte_other _ _ (by omega), readByte_writeByte_other _ _ (by omega),
    readByte_writeByte_other _ _ (by omega), readEntry]

/-- Every byte outside an entry's two is unchanged by a write of that entry. -/
theorem readByte_writeEntry_other (m : Memory) {e a : Nat} (v : Half) (h : a ≠ 2 * e)
    (h' : a ≠ 2 * e + 1) : readByte (writeEntry m e v) a = readByte m a := by
  rw [writeEntry, readByte_writeByte_other _ _ h', readByte_writeByte_other _ _ h]

theorem sorted_writeEntry {m : Memory} (hm : Sorted m) (e : Nat) (v : Half) :
    Sorted (writeEntry m e v) := sorted_writeByte (sorted_writeByte hm _ _) _ _

theorem writeEntry_wf {m : Memory} (hm : m.wf) {e : Nat} (he : e < bufferEntries) (v : Half) :
    (writeEntry m e v).wf :=
  writeByte_wf (writeByte_wf hm (by omega) _) (by omega) _

/-- Two memories in canonical form that read alike everywhere are the same data. -/
theorem eq_of_readByte_eq {m m' : Memory} (hm : m.wf) (hm' : m'.wf)
    (h : ∀ a, readByte m a = readByte m' a) : m = m' := by
  induction m generalizing m' with
  | nil =>
    cases m' with
    | nil => rfl
    | cons c m' =>
      have hc := h c.1
      simp only [readByte, if_true] at hc
      exact absurd hc.symm (hm'.2 c (by simp)).2
  | cons c m ih =>
    cases m' with
    | nil =>
      have hc := h c.1
      simp only [readByte, if_true] at hc
      exact absurd hc (hm.2 c (by simp)).2
    | cons d m' =>
      obtain ⟨k, b⟩ := c
      obtain ⟨l, e⟩ := d
      obtain ⟨hk, hs⟩ := List.pairwise_cons.1 hm.1
      obtain ⟨hl, hs'⟩ := List.pairwise_cons.1 hm'.1
      have hb := (hm.2 (k, b) (by simp)).2
      have he := (hm'.2 (l, e) (by simp)).2
      have hkl : k = l := by
        rcases lt_trichotomy k l with hlt | heq | hgt
        · have := h k
          rw [readByte, if_pos rfl, readByte_absent (m := (l, e) :: m')] at this
          · exact absurd this hb
          · intro c hc
            rcases List.mem_cons.1 hc with rfl | hc
            · exact hlt
            · exact lt_trans hlt (hl c hc)
        · exact heq
        · have := h l
          rw [readByte_absent (m := (k, b) :: m), readByte, if_pos rfl] at this
          · exact absurd this.symm he
          · intro c hc
            rcases List.mem_cons.1 hc with rfl | hc
            · exact hgt
            · exact lt_trans hgt (hk c hc)
      subst hkl
      have hbe : b = e := by simpa [readByte] using h k
      subst hbe
      refine congrArg _ (ih ⟨hs, fun c hc => hm.2 c (by simp [hc])⟩
        ⟨hs', fun c hc => hm'.2 c (by simp [hc])⟩ fun a => ?_)
      by_cases ha : k = a
      · subst ha
        rw [readByte_absent hk, readByte_absent hl]
      · simpa [readByte, ha] using h a

end Sys2Proof.Machine
end

