-- ==== Sys2Proof/Laws/Operations.lean ====
section
/-! SUPPORT. For each shared operation, once, what it can do. -/

namespace Sys2Proof.Machine

/-! ### Addresses and entries -/

theorem bufAddr_toNat (a : Axis) (i : BitVec 3) :
    (bufAddr a i).toNat = 8 * a.index + i.toNat := by
  have := i.isLt
  rw [bufAddr, BitVec.toNat_ofNat]
  cases a <;> simp only [Axis.index] <;> omega

theorem bufAddr_lt (a : Axis) (i : BitVec 3) : (bufAddr a i).toNat < bufferEntries := by
  have := i.isLt
  rw [bufAddr_toNat, bufferEntries]
  cases a <;> simp only [Axis.index] <;> omega

theorem bufAddr_toNat_inj {a b : Axis} {i j : BitVec 3} :
    (bufAddr a i).toNat = (bufAddr b j).toNat ↔ a = b ∧ i = j := by
  constructor
  · intro h
    have := i.isLt
    have := j.isLt
    rw [bufAddr_toNat, bufAddr_toNat] at h
    have hi : i.toNat = j.toNat := by omega
    have ha : a.index = b.index := by omega
    refine ⟨?_, BitVec.eq_of_toNat_eq hi⟩
    cases a <;> cases b <;> first | rfl | exact absurd ha (by decide)
  · rintro ⟨rfl, rfl⟩
    rfl

theorem memRead_bufAddr (a : Axis) (i : BitVec 3) (s : State) :
    memRead (bufAddr a i) s = .ok (bufEntry s a i) := by
  rw [memRead, if_pos (bufAddr_lt a i), bufEntry]

theorem memWrite_bufAddr (a : Axis) (i : BitVec 3) (v : Int) (s : State) :
    memWrite (bufAddr a i) v s =
      .ok { s with mem := writeEntry s.mem (bufAddr a i).toNat (narrowSigned 16 v) } := by
  rw [memWrite, if_pos (bufAddr_lt a i)]

/-- A write keeps the canonical form, at whatever address it does not fault. -/
theorem memWrite_wf {addr : BitVec 6} {v : Int} {s t : State} (hm : s.mem.wf)
    (h : memWrite addr v s = .ok t) : t.mem.wf := by
  rw [memWrite] at h
  split at h
  · next ha =>
    obtain rfl := Except.ok.inj h
    exact writeEntry_wf hm ha _
  · exact absurd h (by simp)

theorem resetWith_mem_wf (c : Config) (hasRsum : Bool) : (State.resetWith c hasRsum).mem.wf :=
  ⟨List.Pairwise.nil, fun _ h => absurd h List.not_mem_nil⟩

theorem reset_mem_wf : State.reset.mem.wf := resetWith_mem_wf ..

theorem bufEntry_range (s : State) (a : Axis) (i : BitVec 3) :
    -32768 ≤ bufEntry s a i ∧ bufEntry s a i ≤ 32767 := by
  have := BitVec.two_mul_toInt_lt (x := readEntry s.mem (bufAddr a i).toNat)
  have := BitVec.le_two_mul_toInt (x := readEntry s.mem (bufAddr a i).toNat)
  rw [bufEntry]
  omega

theorem bufEntry_congr {s t : State} (h : s.mem = t.mem) (a : Axis) (i : BitVec 3) :
    bufEntry s a i = bufEntry t a i := by rw [bufEntry, bufEntry, h]

theorem windowSum_congr {s t : State} (h : s.mem = t.mem) (a : Axis) :
    windowSum s a = windowSum t a := by simp only [windowSum, slots, List.map, bufEntry_congr h]

theorem windowSum_eq (s : State) (a : Axis) :
    windowSum s a = bufEntry s a 0 + (bufEntry s a 1 + (bufEntry s a 2 + (bufEntry s a 3 +
      (bufEntry s a 4 + (bufEntry s a 5 + (bufEntry s a 6 + bufEntry s a 7)))))) := by
  simp [windowSum, slots]

theorem windowSum_range (s : State) (a : Axis) :
    -262144 ≤ windowSum s a ∧ windowSum s a ≤ 262136 := by
  have h := bufEntry_range s a
  have := h 0
  have := h 1
  have := h 2
  have := h 3
  have := h 4
  have := h 5
  have := h 6
  have := h 7
  rw [windowSum_eq]
  omega

theorem bufEntry_nil {s : State} (h : s.mem = []) (a : Axis) (i : BitVec 3) :
    bufEntry s a i = 0 := by
  rw [bufEntry, h]
  show (unlistedByte ++ unlistedByte : BitVec (8 + 8)).toInt = 0
  decide

theorem windowSum_nil {s : State} (h : s.mem = []) (a : Axis) : windowSum s a = 0 := by
  simp [windowSum, slots, bufEntry_nil h]

/-! ### The filter's operations -/

theorem filterWrite_eq (a : Axis) (v : Int) (s : State) :
    filterWrite a v s =
      .ok { s with mem := writeEntry s.mem (bufAddr a s.cursor).toNat (narrowSigned 16 v) } :=
  memWrite_bufAddr a s.cursor v s

theorem filterSum_eq (a : Axis) (s : State) : filterSum a s = .ok (windowSum s a) := by
  have h : ∀ is, filterSumFrom a s is = .ok (is.map (bufEntry s a)).sum := by
    intro is
    induction is with
    | nil => rfl
    | cons i is ih => rw [filterSumFrom, memRead_bufAddr, ih]; rfl
  exact h slots

theorem filterSums_eq (s : State) (as : List Axis) :
    filterSums s as = .ok (as.map (windowSum s)) := by
  induction as with
  | nil => rfl
  | cons a as ih => rw [filterSums, filterSum_eq, ih]; rfl

/-- The running sums, where present, after axis a takes v (10_state.md R33). -/
def rsumAfter (s : State) (a : Axis) (v : Int) : Option (Six (BitVec 20)) :=
  s.rsum.map fun r =>
    Six.set r a (narrowSigned 20 ((Six.get r a).toInt - bufEntry s a s.cursor + v))

theorem rsumUpdate_eq (a : Axis) (v : Int) (s : State) :
    rsumUpdate a v s = .ok { s with rsum := rsumAfter s a v } := by
  rcases h : s.rsum with _ | r
  · simp only [rsumUpdate, rsumAfter, h, Option.map_none]
    rw [← h]
  · simp only [rsumUpdate, rsumAfter, h, Option.map_some, memRead_bufAddr]
    rfl

/-- The state after one axis has taken its value at the cursor. -/
def axisWritten (v : Axis → Int) (s : State) (a : Axis) : State :=
  { s with
    mem := writeEntry s.mem (bufAddr a s.cursor).toNat (narrowSigned 16 (v a))
    rsum := rsumAfter s a (v a) }

theorem filterWrites_eq (v : Axis → Int) (as : List Axis) (s : State) :
    filterWrites v as s = .ok (as.foldl (axisWritten v) s) := by
  induction as generalizing s with
  | nil => rfl
  | cons a as ih =>
    rw [filterWrites, rsumUpdate_eq]
    show (filterWrite a (v a) { s with rsum := rsumAfter s a (v a) } >>= filterWrites v as) = _
    rw [filterWrite_eq]
    exact ih (axisWritten v s a)

/-- The corrected values of a frame in a state (43_pipeline.md R161). -/
abbrev cycleValues (f : SampleFrame) (s : State) : Axis → Int :=
  correctedValue (decodeSample f) s.offset

/-- The state after the six writes of a cycle. -/
def cycleWritten (f : SampleFrame) (s : State) : State :=
  Axis.all.foldl (axisWritten (cycleValues f s)) s

/-- The state after a whole cycle. -/
def cycled (f : SampleFrame) (s : State) : State :=
  cursorAdvance (respond (sampleResponse (cycleWritten f s)) (cycleWritten f s))

theorem sampleCycle_eq (f : SampleFrame) (s : State) : sampleCycle f s = .ok (cycled f s) := by
  have hs : (Axis.all.map (windowSum (cycleWritten f s))).flatMap sumBytes =
      sampleResponse (cycleWritten f s) := by
    rw [sampleResponse, List.flatMap_map]
  rw [sampleCycle, filterWrites_eq]
  show (filterSums (cycleWritten f s) Axis.all >>= fun sums =>
    Except.ok (cursorAdvance (respond (sums.flatMap sumBytes) (cycleWritten f s)))) = _
  rw [filterSums_eq, cycled, ← hs]
  rfl

theorem cycleValues_range (f : SampleFrame) (s : State) (a : Axis) :
    -32768 ≤ cycleValues f s a ∧ cycleValues f s a ≤ 32767 := by
  cases a
  · exact decode16_range f.axH f.axL
  · exact decode16_range f.ayH f.ayL
  · exact decode16_range f.azH f.azL
  · exact wrap16_range _
  · exact wrap16_range _
  · exact wrap16_range _

theorem toInt_narrow_cycleValues (f : SampleFrame) (s : State) (a : Axis) :
    (narrowSigned 16 (cycleValues f s a)).toInt = cycleValues f s a := by
  have := cycleValues_range f s a
  refine toInt_narrowSigned ?_ (by omega)
  simp only [fitsSigned, decide_eq_true_eq]
  omega

/-! ### Six values -/

theorem six_get_set_same {α : Type} (r : Six α) (a : Axis) (x : α) :
    Six.get (Six.set r a x) a = x := by cases a <;> rfl

theorem six_get_set_other {α : Type} (r : Six α) {a b : Axis} (x : α) (h : b ≠ a) :
    Six.get (Six.set r a x) b = Six.get r b := by
  cases a <;> cases b <;> first | rfl | exact absurd rfl h

theorem six_ext {α : Type} {r r' : Six α} (h : ∀ a, Six.get r a = Six.get r' a) : r = r' := by
  have h1 := h .accelX
  have h2 := h .accelY
  have h3 := h .accelZ
  have h4 := h .gyroX
  have h5 := h .gyroY
  have h6 := h .gyroZ
  simp only [Six.get] at h1 h2 h3 h4 h5 h6
  cases r
  cases r'
  simp_all

/-! ### What one cycle does -/

/-- What a list of axis writes at one cursor leaves: every register but the buffers and the
running sums, and in the buffers the new value of each listed axis at the cursor. -/
theorem axesWritten_spec (v : Axis → Int) (as : List Axis) (s : State) :
    let t := as.foldl (axisWritten v) s
    t = { s with mem := t.mem, rsum := t.rsum } ∧
      (s.mem.wf → t.mem.wf) ∧
      (Sorted s.mem → ∀ a i, readEntry t.mem (bufAddr a i).toNat =
        if a ∈ as ∧ i = s.cursor then narrowSigned 16 (v a)
        else readEntry s.mem (bufAddr a i).toNat) := by
  induction as generalizing s with
  | nil => exact ⟨rfl, fun h => h, fun _ a i => by simp⟩
  | cons b as ih =>
    obtain ⟨h1, h2, h3⟩ := ih (axisWritten v s b)
    refine ⟨?_, fun hm => h2 (writeEntry_wf hm (bufAddr_lt b s.cursor) _), fun hm a i => ?_⟩
    · rw [List.foldl_cons, h1]
      rfl
    · have hm' : Sorted (axisWritten v s b).mem := sorted_writeEntry hm _ _
      rw [List.foldl_cons, h3 hm']
      show (if a ∈ as ∧ i = s.cursor then _ else
        readEntry (writeEntry s.mem (bufAddr b s.cursor).toNat (narrowSigned 16 (v b)))
          (bufAddr a i).toNat) = _
      by_cases hi : i = s.cursor
      · by_cases hab : a = b
        · subst hab
          subst hi
          rw [readEntry_writeEntry_same hm]
          simp
        · have hne : (bufAddr a i).toNat ≠ (bufAddr b s.cursor).toNat :=
            fun h => hab (bufAddr_toNat_inj.1 h).1
          rw [readEntry_writeEntry_other _ _ hne]
          simp [hi, hab]
      · have hne : (bufAddr a i).toNat ≠ (bufAddr b s.cursor).toNat :=
          fun h => hi (bufAddr_toNat_inj.1 h).2
        rw [readEntry_writeEntry_other _ _ hne]
        simp [hi]

theorem axis_mem_all (a : Axis) : a ∈ Axis.all := by cases a <;> decide

/-- The registers a cycle leaves alone, and the cursor and response it writes. -/
theorem cycled_eq (f : SampleFrame) (s : State) :
    cycled f s =
      { s with
        mem := (cycleWritten f s).mem
        rsum := (cycleWritten f s).rsum
        cursor := BitVec.ofNat 3 ((s.cursor.toNat + 1) % 8)
        output := s.output ++ sampleResponse (cycleWritten f s) } := by
  have key : ∀ (t : State) (out : List Byte), t = { s with mem := t.mem, rsum := t.rsum } →
      cursorAdvance (respond out t) =
        { s with
          mem := t.mem
          rsum := t.rsum
          cursor := BitVec.ofNat 3 ((s.cursor.toNat + 1) % 8)
          output := s.output ++ out } := by
    intro t out h
    cases t
    cases s
    simp only [State.mk.injEq] at h
    obtain ⟨rfl, rfl, rfl, rfl, rfl, -, rfl, rfl, -, rfl, rfl⟩ := h
    rfl
  exact key _ _ (axesWritten_spec (cycleValues f s) Axis.all s).1

@[simp] theorem cycled_cfg (f : SampleFrame) (s : State) : (cycled f s).cfg = s.cfg := by
  rw [cycled_eq]

@[simp] theorem cycled_phase (f : SampleFrame) (s : State) : (cycled f s).phase = s.phase := by
  rw [cycled_eq]

@[simp] theorem cycled_pcnt (f : SampleFrame) (s : State) : (cycled f s).pcnt = s.pcnt := by
  rw [cycled_eq]

@[simp] theorem cycled_acc (f : SampleFrame) (s : State) : (cycled f s).acc = s.acc := by
  rw [cycled_eq]

@[simp] theorem cycled_offset (f : SampleFrame) (s : State) : (cycled f s).offset = s.offset := by
  rw [cycled_eq]

@[simp] theorem cycled_err (f : SampleFrame) (s : State) : (cycled f s).err = s.err := by
  rw [cycled_eq]

@[simp] theorem cycled_input (f : SampleFrame) (s : State) : (cycled f s).input = s.input := by
  rw [cycled_eq]

@[simp] theorem cycled_cursor (f : SampleFrame) (s : State) :
    (cycled f s).cursor = BitVec.ofNat 3 ((s.cursor.toNat + 1) % 8) := by
  rw [cycled_eq]

theorem cycled_mem_wf {f : SampleFrame} {s : State} (hm : s.mem.wf) : (cycled f s).mem.wf := by
  rw [cycled_eq]
  exact (axesWritten_spec (cycleValues f s) Axis.all s).2.1 hm

/-- The buffers after a cycle: the new value at the cursor, the old entry elsewhere. -/
theorem bufEntry_cycled (f : SampleFrame) {s : State} (hm : s.mem.wf) (a : Axis) (i : BitVec 3) :
    bufEntry (cycled f s) a i =
      if i = s.cursor then cycleValues f s a else bufEntry s a i := by
  have h := (axesWritten_spec (cycleValues f s) Axis.all s).2.2 hm.1 a i
  have ht : (cycled f s).mem = (cycleWritten f s).mem := by rw [cycled_eq]
  rw [bufEntry, ht]
  rw [show (cycleWritten f s).mem = (Axis.all.foldl (axisWritten (cycleValues f s)) s).mem from rfl,
    h]
  simp only [axis_mem_all, true_and]
  split
  · exact toInt_narrow_cycleValues f s a
  · rfl

/-- The numerator of an axis after a cycle: the evicted entry leaves, the new value enters. -/
theorem windowSum_cycled (f : SampleFrame) {s : State} (hm : s.mem.wf) (a : Axis) :
    windowSum (cycled f s) a = windowSum s a - bufEntry s a s.cursor + cycleValues f s a := by
  have hc : ∀ c : BitVec 3, c = 0 ∨ c = 1 ∨ c = 2 ∨ c = 3 ∨ c = 4 ∨ c = 5 ∨ c = 6 ∨ c = 7 := by
    decide
  rw [windowSum_eq, windowSum_eq]
  simp only [bufEntry_cycled f hm]
  rcases hc s.cursor with h | h | h | h | h | h | h | h <;> rw [h] <;> simp <;> ring

/-! ### What an error, a reset and a fetch do -/

theorem stickyErr_ne_zero (e : BitVec 4) (c : CmdError) : stickyErr e c ≠ 0 := by
  rw [stickyErr]
  split
  · cases c <;> decide
  · assumption

theorem stickyErr_of_ne_zero {e : BitVec 4} (h : e ≠ 0) (c : CmdError) : stickyErr e c = e :=
  if_neg h

theorem divisorP_pos (c : Config) : 0 < divisorP c := Nat.two_pow_pos _

theorem divisorP_le (c : Config) : divisorP c ≤ 32768 :=
  Nat.pow_le_pow_right (by omega) (Nat.le_of_lt_succ c.pLog2.isLt) |>.trans (by norm_num)

theorem extraBit_le (c : Config) : (extraBit c).toNat ≤ 1 := Nat.le_of_lt_succ (extraBit c).isLt

theorem nProbes_le (c : Config) : nProbes c ≤ 32769 := by
  have := divisorP_le c
  have := extraBit_le c
  rw [nProbes]
  omega

theorem nProbes_pos (c : Config) : 0 < nProbes c := by
  have := divisorP_pos c
  rw [nProbes]
  omega

/-- A payload that is all there is taken whole. -/
theorem fetchPayload_sent (bs taken : List Byte) (rest : List HostAction) :
    fetchPayload bs.length taken (sent bs ++ rest) = .command (taken.reverse ++ bs) rest := by
  induction bs generalizing taken with
  | nil => simp [fetchPayload, sent]
  | cons b bs ih =>
    show fetchPayload bs.length (b :: taken) (sent bs ++ rest) = _
    rw [ih]
    simp

/-- A payload that ends too soon is not taken. -/
theorem fetchPayload_short {n : Nat} {bs : List Byte} (h : bs.length < n) (taken : List Byte) :
    fetchPayload n taken (sent bs) = .incomplete := by
  induction bs generalizing n taken with
  | nil => cases n with
    | zero => exact absurd h (by simp)
    | succ n => rfl
  | cons b bs ih => cases n with
    | zero => exact absurd h (by simp)
    | succ n => exact ih (by simpa using h) (b :: taken)

/-- A reset discards the part of a payload before it. -/
theorem fetchPayload_reset {n : Nat} {bs : List Byte} (h : bs.length < n) (taken : List Byte)
    (rest : List HostAction) :
    fetchPayload n taken (sent bs ++ .reset :: rest) = .reset rest := by
  induction bs generalizing n taken with
  | nil => cases n with
    | zero => exact absurd h (by simp)
    | succ n => rfl
  | cons b bs ih => cases n with
    | zero => exact absurd h (by simp)
    | succ n => exact ih (by simpa using h) (b :: taken)

/-- The fetch of a whole command. -/
theorem fetch_sent {h : Byte} {bs : List Byte} (hl : bs.length + 1 = commandLength h)
    (rest : List HostAction) :
    fetch (sent (h :: bs) ++ rest) = .command (h :: bs) rest := by
  show fetchPayload (commandLength h - 1) [h] (sent bs ++ rest) = _
  rw [← hl, Nat.add_sub_cancel, fetchPayload_sent]
  rfl

end Sys2Proof.Machine
end

