-- ==== Sys2Proof/Laws/Exec.lean ====
section
/-! SUPPORT. What a command and a step can do: one inversion lemma each. -/

namespace Sys2Proof.Machine

/-- The running sums after a cycle, where present. -/
theorem axesWritten_rsum (v : Axis → Int) (as : List Axis) (hn : as.Nodup) (s : State) :
    (as.foldl (axisWritten v) s).rsum.isSome = s.rsum.isSome ∧
      ∀ r, s.rsum = some r → ∃ r', (as.foldl (axisWritten v) s).rsum = some r' ∧
        ∀ a, Six.get r' a =
          if a ∈ as then narrowSigned 20 ((Six.get r a).toInt - bufEntry s a s.cursor + v a)
          else Six.get r a := by
  induction as generalizing s with
  | nil => exact ⟨rfl, fun r hr => ⟨r, hr, fun a => by simp⟩⟩
  | cons b as ih =>
    obtain ⟨hb, hn⟩ := List.nodup_cons.1 hn
    obtain ⟨h1, h2⟩ := ih hn (axisWritten v s b)
    refine ⟨by rw [List.foldl_cons, h1]; exact Option.isSome_map .., fun r hr => ?_⟩
    have hr' : (axisWritten v s b).rsum =
        some (Six.set r b (narrowSigned 20 ((Six.get r b).toInt - bufEntry s b s.cursor + v b))) := by
      show s.rsum.map _ = _
      rw [hr]
      rfl
    obtain ⟨r', h3, h4⟩ := h2 _ hr'
    refine ⟨r', h3, fun a => ?_⟩
    rw [h4 a]
    by_cases hab : a = b
    · subst hab
      rw [if_neg hb, six_get_set_same, if_pos (List.mem_cons_self ..)]
    · have hold : bufEntry (axisWritten v s b) a s.cursor = bufEntry s a s.cursor := by
        have hne : (bufAddr a s.cursor).toNat ≠ (bufAddr b s.cursor).toNat :=
          fun h => hab (bufAddr_toNat_inj.1 h).1
        rw [bufEntry, bufEntry]
        exact congrArg _ (readEntry_writeEntry_other _ _ hne)
      rw [six_get_set_other _ _ hab]
      show (if a ∈ as then narrowSigned 20 ((Six.get r a).toInt -
        bufEntry (axisWritten v s b) a s.cursor + v a) else _) = _
      rw [hold]
      simp [hab]

/-- The buffers after the writes depend on the values, the buffers and the cursor alone. -/
theorem axesWritten_mem_congr {v v' : Axis → Int} (hv : v = v') (as : List Axis) {s s' : State}
    (hm : s.mem = s'.mem) (hc : s.cursor = s'.cursor) :
    (as.foldl (axisWritten v) s).mem = (as.foldl (axisWritten v') s').mem := by
  subst hv
  induction as generalizing s s' with
  | nil => exact hm
  | cons a as ih =>
    refine ih ?_ hc
    show writeEntry s.mem _ _ = writeEntry s'.mem _ _
    rw [hm, hc]

/-- The running sums after the writes depend on these and the running sums alone. -/
theorem axesWritten_rsum_congr {v v' : Axis → Int} (hv : v = v') (as : List Axis) {s s' : State}
    (hm : s.mem = s'.mem) (hc : s.cursor = s'.cursor) (hr : s.rsum = s'.rsum) :
    (as.foldl (axisWritten v) s).rsum = (as.foldl (axisWritten v') s').rsum := by
  subst hv
  induction as generalizing s s' with
  | nil => exact hr
  | cons a as ih =>
    refine ih ?_ hc ?_
    · show writeEntry s.mem _ _ = writeEntry s'.mem _ _
      rw [hm, hc]
    · show rsumAfter s a _ = rsumAfter s' a _
      simp only [rsumAfter, hr, hc, bufEntry_congr hm]

theorem cycled_mem_congr {f f' : SampleFrame} {s s' : State} (hm : s.mem = s'.mem)
    (hc : s.cursor = s'.cursor) (hv : cycleValues f s = cycleValues f' s') :
    (cycled f s).mem = (cycled f' s').mem := by
  rw [cycled_eq, cycled_eq]
  exact axesWritten_mem_congr hv Axis.all hm hc

theorem cycled_rsum_congr {f f' : SampleFrame} {s s' : State} (hm : s.mem = s'.mem)
    (hc : s.cursor = s'.cursor) (hr : s.rsum = s'.rsum)
    (hv : cycleValues f s = cycleValues f' s') : (cycled f s).rsum = (cycled f' s').rsum := by
  rw [cycled_eq, cycled_eq]
  exact axesWritten_rsum_congr hv Axis.all hm hc hr

/-- A cycle depends on its frame through the six corrected values alone. -/
theorem cycled_congr_values {f f' : SampleFrame} {s : State}
    (h : cycleValues f s = cycleValues f' s) : cycled f s = cycled f' s := by
  rw [cycled, cycled, cycleWritten, cycleWritten, h]

theorem cycled_rsum_isSome (f : SampleFrame) (s : State) :
    (cycled f s).rsum.isSome = s.rsum.isSome := by
  rw [cycled_eq]
  exact (axesWritten_rsum (cycleValues f s) Axis.all (by decide) s).1

theorem cycled_rsum (f : SampleFrame) {s : State} {r : Six (BitVec 20)} (hr : s.rsum = some r) :
    ∃ r', (cycled f s).rsum = some r' ∧ ∀ a, Six.get r' a =
      narrowSigned 20 ((Six.get r a).toInt - bufEntry s a s.cursor + cycleValues f s a) := by
  obtain ⟨r', h1, h2⟩ :=
    (axesWritten_rsum (cycleValues f s) Axis.all (by decide) s).2 r hr
  refine ⟨r', by rw [cycled_eq]; exact h1, fun a => ?_⟩
  rw [h2 a, if_pos (axis_mem_all a)]

theorem sampleResponse_congr {s t : State} (h : s.mem = t.mem) :
    sampleResponse s = sampleResponse t := by
  simp only [sampleResponse, Axis.all, List.flatMap_cons, List.flatMap_nil, windowSum_congr h]

/-- The response of a cycle, from the state it leaves. -/
theorem cycled_output (f : SampleFrame) (s : State) :
    (cycled f s).output = s.output ++ sampleResponse (cycled f s) := by
  rw [sampleResponse_congr (s := cycled f s) (t := cycleWritten f s) (by rw [cycled_eq]), cycled_eq]

/-- A cycle in terms of the buffers and running sums it leaves. -/
theorem cycled_eq_self (f : SampleFrame) (s : State) :
    cycled f s =
      { s with
        mem := (cycled f s).mem
        rsum := (cycled f s).rsum
        cursor := BitVec.ofNat 3 ((s.cursor.toNat + 1) % 8)
        output := s.output ++ sampleResponse (cycled f s) } := by
  conv_lhs => rw [cycled_eq]
  rw [sampleResponse_congr (s := cycled f s) (t := cycleWritten f s) (by rw [cycled_eq]), cycled_eq]

theorem exec_sample_running {f : SampleFrame} {s : State} (h : s.phase = .running) :
    exec (.sample f) s = .next (cycled f s) := by
  show execSample f s = _
  rw [execSample, h]
  show outcomeOf (sampleCycle f s) = _
  rw [sampleCycle_eq]
  rfl

theorem exec_sample_calibrating {f : SampleFrame} {s : State} (h : s.phase = .calibrating) :
    exec (.sample f) s = .next (raiseCmdError .sampleWhileCalibrating s) := by
  show execSample f s = _
  rw [execSample, h]

theorem exec_calProbe_running {f : CalFrame} {s : State} (h : s.phase = .running) :
    exec (.calProbe f) s = .next (raiseCmdError .probeWhileRunning s) := by
  show execCalProbe f s = _
  rw [execCalProbe, h]

/-- The state after an accepted probe. -/
def probed (f : CalFrame) (s : State) : State :=
  if (accumulate (decodeGyro f) s).pcnt.toNat = nProbes s.cfg
  then calComplete (accumulate (decodeGyro f) s) else accumulate (decodeGyro f) s

theorem exec_calProbe_calibrating {f : CalFrame} {s : State} (h : s.phase = .calibrating) :
    exec (.calProbe f) s = .next (probed f s) := by
  show execCalProbe f s = _
  rw [execCalProbe, h]
  rfl

/-- Every way a command can end, with the state it leaves. -/
theorem exec_cases {i : Instr} {s t : State} (h : exec i s = .next t) :
    (∃ out, t = respond out s ∧ (i = .status ∨ ∃ hi lo, i = .decode hi lo)) ∨
      (∃ f, i = .calProbe f ∧ s.phase = .calibrating ∧ t = probed f s) ∨
      (∃ f, i = .calProbe f ∧ s.phase = .running ∧ t = raiseCmdError .probeWhileRunning s) ∨
      (∃ f, i = .sample f ∧ s.phase = .running ∧ t = cycled f s) ∨
      (∃ f, i = .sample f ∧ s.phase = .calibrating ∧
        t = raiseCmdError .sampleWhileCalibrating s) := by
  cases i with
  | decode hi lo => exact .inl ⟨_, (Host.Outcome.next.inj h).symm, .inr ⟨hi, lo, rfl⟩⟩
  | calProbe f =>
    cases hp : s.phase with
    | calibrating =>
      rw [exec_calProbe_calibrating hp] at h
      exact .inr (.inl ⟨f, rfl, rfl, (Host.Outcome.next.inj h).symm⟩)
    | running =>
      rw [exec_calProbe_running hp] at h
      exact .inr (.inr (.inl ⟨f, rfl, rfl, (Host.Outcome.next.inj h).symm⟩))
  | sample f =>
    cases hp : s.phase with
    | calibrating =>
      rw [exec_sample_calibrating hp] at h
      exact .inr (.inr (.inr (.inr ⟨f, rfl, rfl, (Host.Outcome.next.inj h).symm⟩)))
    | running =>
      rw [exec_sample_running hp] at h
      exact .inr (.inr (.inr (.inl ⟨f, rfl, rfl, (Host.Outcome.next.inj h).symm⟩)))
  | status => exact .inl ⟨_, (Host.Outcome.next.inj h).symm, .inl rfl⟩

/-- What fetching a payload can answer. -/
theorem fetchPayload_cases (n : Nat) (taken : List Byte) (input : List HostAction) :
    (∃ bs rest, bs.length = n ∧ input = sent bs ++ rest ∧
      fetchPayload n taken input = .command (taken.reverse ++ bs) rest) ∨
      (∃ bs rest, bs.length < n ∧ input = sent bs ++ .reset :: rest ∧
        fetchPayload n taken input = .reset rest) ∨
      ∃ bs, bs.length < n ∧ input = sent bs ∧ fetchPayload n taken input = .incomplete := by
  induction n generalizing taken input with
  | zero => exact .inl ⟨[], input, rfl, rfl, by simp [fetchPayload]⟩
  | succ n ih =>
    cases input with
    | nil => exact .inr (.inr ⟨[], by simp, rfl, rfl⟩)
    | cons x input =>
      cases x with
      | reset => exact .inr (.inl ⟨[], input, by simp, rfl, rfl⟩)
      | byte b =>
        rcases ih (b :: taken) input with
          ⟨bs, rest, h1, h2, h3⟩ | ⟨bs, rest, h1, h2, h3⟩ | ⟨bs, h1, h2, h3⟩
        · exact .inl ⟨b :: bs, rest, by simp [h1], by simp [h2, sent], by
            show fetchPayload n (b :: taken) input = _
            rw [h3]
            simp⟩
        · exact .inr (.inl ⟨b :: bs, rest, by simpa using h1, by simp [h2, sent], h3⟩)
        · exact .inr (.inr ⟨b :: bs, by simpa using h1, by simp [h2, sent], h3⟩)

theorem commandLength_pos (h : Byte) : 0 < commandLength h := by
  rw [commandLength]
  split <;> omega

/-- What fetching can answer: nothing, a reset, a whole command or a partial one. -/
theorem fetch_cases (input : List HostAction) :
    (input = [] ∧ fetch input = .idle) ∨
      (∃ bs rest, (bs = [] ∨ ∃ h ps, bs = h :: ps ∧ ps.length + 1 < commandLength h) ∧
        input = sent bs ++ .reset :: rest ∧ fetch input = .reset rest) ∨
      (∃ h ps rest, ps.length + 1 = commandLength h ∧ input = sent (h :: ps) ++ rest ∧
        fetch input = .command (h :: ps) rest) ∨
      ∃ h ps, ps.length + 1 < commandLength h ∧ input = sent (h :: ps) ∧
        fetch input = .incomplete := by
  cases input with
  | nil => exact .inl ⟨rfl, rfl⟩
  | cons x input =>
    cases x with
    | reset => exact .inr (.inl ⟨[], input, .inl rfl, rfl, rfl⟩)
    | byte h =>
      have hp := commandLength_pos h
      rcases fetchPayload_cases (commandLength h - 1) [h] input with
        ⟨bs, rest, h1, h2, h3⟩ | ⟨bs, rest, h1, h2, h3⟩ | ⟨bs, h1, h2, h3⟩
      · exact .inr (.inr (.inl ⟨h, bs, rest, by omega, by simp [h2, sent], h3⟩))
      · exact .inr (.inl ⟨h :: bs, rest, .inr ⟨h, bs, rfl, by omega⟩, by simp [h2, sent], h3⟩)
      · exact .inr (.inr (.inr ⟨h, bs, by omega, by simp [h2, sent], h3⟩))

/-- The decoder on a header byte and what follows it. -/
theorem decodeCommand_reserved {h : Byte} (hh : h.toNat = 0 ∨ 5 ≤ h.toNat) (rest : List Byte) :
    decodeCommand (h :: rest) = .error (.reservedOpcode h) := by
  have hd : ∀ n : Nat, n = 0 ∨ 5 ≤ n → ∀ α : Type, ∀ a b c d e : α,
      (match n with | 1 => a | 2 => b | 3 => c | 4 => d | _ => e) = e := by
    intro n hn α a b c d e
    split <;> first | rfl | (exfalso; omega)
  exact hd h.toNat hh _ _ _ _ _ _

/-- A whole command's bytes decode, or begin with a reserved header. -/
theorem decode_whole {h : Byte} {ps : List Byte} (hl : ps.length + 1 = commandLength h) :
    (∃ i, decodeCommand (h :: ps) = .ok (i, []) ∧ h :: ps = encode i) ∨
      (decodeCommand (h :: ps) = .error (.reservedOpcode h) ∧ ps = [] ∧
        (h.toNat = 0 ∨ 5 ≤ h.toNat)) := by
  have hh : ∀ k : Nat, k < 256 → h.toNat = k → h = BitVec.ofNat 8 k := by
    intro k hk e
    apply BitVec.eq_of_toNat_eq
    rw [e, BitVec.toNat_ofNat]
    omega
  by_cases h1 : h.toNat = 1
  · obtain rfl := hh 1 (by omega) h1
    obtain ⟨hi, lo, rfl⟩ : ∃ hi lo, ps = [hi, lo] := by
      match ps, hl with
      | [hi, lo], _ => exact ⟨hi, lo, rfl⟩
    exact .inl ⟨.decode hi lo, rfl, rfl⟩
  by_cases h2 : h.toNat = 2
  · obtain rfl := hh 2 (by omega) h2
    match ps, hl with
    | [a, b, c, d, e, f], _ => exact .inl ⟨.calProbe ⟨a, b, c, d, e, f⟩, rfl, rfl⟩
  by_cases h3 : h.toNat = 3
  · obtain rfl := hh 3 (by omega) h3
    match ps, hl with
    | [a, b, c, d, e, f, g, k, l, m, n, o, p, q], _ =>
      exact .inl ⟨.sample ⟨a, b, c, d, e, f, g, k, l, m, n, o, p, q⟩, rfl, rfl⟩
  have hlen : commandLength h = 1 := by
    rw [commandLength]
    split <;> first | rfl | (exfalso; omega)
  have hps : ps = [] := List.length_eq_zero_iff.1 (by omega)
  subst hps
  by_cases h4 : h.toNat = 4
  · obtain rfl := hh 4 (by omega) h4
    exact .inl ⟨.status, rfl, rfl⟩
  · exact .inr ⟨decodeCommand_reserved (by omega) [], rfl, by omega⟩

/-- Every way a step can go on: a reset, a command, a reserved header. -/
theorem step_cases {s t : State} (h : step s = .next t) :
    (∃ bs rest, s.input = sent bs ++ .reset :: rest ∧ t = hostReset (withInput rest s)) ∨
      (∃ i rest, s.input = sent (encode i) ++ rest ∧ exec i (withInput rest s) = .next t) ∨
      ∃ b rest, s.input = .byte b :: rest ∧
        t = raiseCmdError .reservedOpcode (withInput rest s) := by
  rw [step] at h
  rcases fetch_cases s.input with
    ⟨-, hf⟩ | ⟨bs, rest, -, hs, hf⟩ | ⟨b, ps, rest, hl, hs, hf⟩ | ⟨b, ps, -, -, hf⟩ <;>
    rw [hf] at h
  · exact absurd h (by simp [runFetched])
  · exact .inl ⟨bs, rest, hs, (Host.Outcome.next.inj h).symm⟩
  · rcases decode_whole hl with ⟨i, hd, he⟩ | ⟨hd, rfl, -⟩
    · refine .inr (.inl ⟨i, rest, by rw [hs, he], ?_⟩)
      simpa only [runFetched, runCommand, hd] using h
    · refine .inr (.inr ⟨b, rest, hs, ?_⟩)
      simp only [runFetched, runCommand, hd] at h
      exact (Host.Outcome.next.inj h).symm
  · exact absurd h (by simp [runFetched])

end Sys2Proof.Machine
end

