-- ==== Sys2Proof/Laws/PerInstr.lean ====
section
/-! SUPPORT. A statement about each command as syntax: it occupies exactly the length its header
gives, and that header is not reserved (30_encoding.md R72, R77). -/

namespace Sys2Proof.Laws.EncodedLength

/-- The encoded length of a command is `LEN` of its header, which is one of the four defined. -/
def Statement (i : Instr) : Prop :=
  (encode i).length = commandLength (headerOf i) ∧
    1 ≤ (headerOf i).toNat ∧ (headerOf i).toNat ≤ 4 ∧ i.wellFormed = true

theorem decode (hi lo : Byte) : Statement (.decode hi lo) :=
  ⟨rfl, by simp [headerOf], by simp [headerOf], rfl⟩

theorem calProbe (frame : CalFrame) : Statement (.calProbe frame) :=
  ⟨rfl, by simp [headerOf], by simp [headerOf], rfl⟩

theorem sample (frame : SampleFrame) : Statement (.sample frame) :=
  ⟨rfl, by simp [headerOf], by simp [headerOf], rfl⟩

theorem status : Statement .status := ⟨rfl, by simp [headerOf], by simp [headerOf], rfl⟩

end Sys2Proof.Laws.EncodedLength
end

