-- ==== Sys2Proof/Tests/Slice0.lean ====
section
/-! SUPPORT. The model's own tests. Expected values are those of spec/95_test_vectors.md, named by
their ids there; the last section shows for each statement with hypotheses a state and operands
that meet them. -/

namespace Sys2Proof.Tests.Slice0

open Sys2Proof Sys2Proof.Machine

/-! ### Well-formedness: each check refuses an ill-formed term -/

theorem test_calFrame_short_refused : CalFrame.ofBytes? [0, 0, 0, 0, 0] = none := by decide

theorem test_calFrame_long_refused : CalFrame.ofBytes? [0, 0, 0, 0, 0, 0, 0] = none := by decide

theorem test_sampleFrame_short_refused :
    SampleFrame.ofBytes? [0, 0, 0, 0, 0, 0, 0, 0, 0, 0, 0, 0, 0] = none := by decide

theorem test_operand_out_of_range_refused :
    operandInRange 65536 = false ∧ operandInRange (-32769) = false := by decide

theorem test_byte_out_of_range_refused :
    byteInRange 256 = false ∧ byteInRange (-1) = false := by decide

theorem test_config_out_of_range_refused :
    Config.ofParams? 16 0 = none ∧ Config.ofParams? 0 2 = none := by decide

/-! ### Decoding: words written out from 30_encoding.md R73 to R75 -/

theorem test_decode_word : decodeCommand [0x01, 0xFF, 0xFB] = .ok (.decode 0xFF 0xFB, []) := by
  decide

theorem test_calProbe_word :
    decodeCommand [0x02, 0x00, 0x0A, 0xFF, 0xFB, 0x00, 0x00] =
      .ok (.calProbe
        { gxH := 0x00, gxL := 0x0A, gyH := 0xFF, gyL := 0xFB, gzH := 0x00, gzL := 0x00 },
        []) := by
  decide

theorem test_sample_word :
    decodeCommand [0x03, 0x00, 0x01, 0xFF, 0xFF, 0x80, 0x00, 0x12, 0x34, 0x7F, 0xFF, 0x00, 0x6E,
        0xFF, 0xFB] =
      .ok (.sample
        { axH := 0x00, axL := 0x01, ayH := 0xFF, ayL := 0xFF, azH := 0x80, azL := 0x00,
          tH := 0x12, tL := 0x34, gxH := 0x7F, gxL := 0xFF, gyH := 0x00, gyL := 0x6E,
          gzH := 0xFF, gzL := 0xFB }, []) := by
  decide

theorem test_status_word : decodeCommand [0x04] = .ok (.status, []) := by decide

theorem test_reserved_words :
    decodeCommand [0x00] = .error (.reservedOpcode 0x00) ∧
      decodeCommand [0x05] = .error (.reservedOpcode 0x05) ∧
      decodeCommand [0xFF] = .error (.reservedOpcode 0xFF) := by
  decide

theorem test_partial_word : decodeCommand [0x02, 0x00, 0x01] = .error (.partialCommand 0x02) := by
  decide

/-- The table's numbering: bit 0 is the least significant bit of the first byte, and a word of 8
bits leaves the payload 0. -/
theorem test_table_words :
    decodeTableWord 24 0xFB8001 = some (.decode 0x80 0xFB) ∧
      decodeTableWord 8 0xFB8001 = some (.decode 0x00 0x00) ∧
      decodeTableWord 8 0x04 = some .status ∧ decodeTableWord 8 0x05 = none := by
  decide

/-! ### One step on a small state -/

/-- The state after one step on the given bytes, if the step goes on. -/
def stepOn (bytes : List Byte) (s : State) : Option State :=
  match step (sendFirst bytes s) with
  | .next t => some t
  | _ => none

/-- P = 4, exactly P probes (the configuration of programs L3-1 and L3-2). -/
def config4 : Config := { pLog2 := 2, calExtraProbe := false }

/-- P = 1, one probe (program L3-4). -/
def config1 : Config := { pLog2 := 0, calExtraProbe := false }

/-- P = 1, two probes (program L3-5). -/
def config1Extra : Config := { pLog2 := 0, calExtraProbe := true }

/-- A block with P = 1 after its one probe (gx, gy, gz) = (x, y, z). -/
def ready (x y z : Int) : State :=
  { State.resetWith config1 true with
    phase := .running
    pcnt := 1
    acc := { x := BitVec.ofInt 32 x, y := BitVec.ofInt 32 y, z := BitVec.ofInt 32 z }
    offset := { x := BitVec.ofInt 32 x, y := BitVec.ofInt 32 y, z := BitVec.ofInt 32 z } }

/-- V-D6 and V-D3. -/
theorem test_decode_answers :
    (stepOn [0x01, 0x80, 0x00] State.reset).map (·.output) = some [0x80, 0x00] ∧
      decode16 0x80 0x00 = -32768 ∧ decode16 0x00 0xFF = 255 := by
  decide

/-- V-C8: P = 1 completes at once. -/
theorem test_calProbe_completes_at_once :
    (stepOn [0x02, 0x00, 0x05, 0xFF, 0xFB, 0x00, 0x00] (State.resetWith config1 true)).map
        (fun t => (t.phase, t.pcnt, t.offset.x.toInt, t.offset.y.toInt, t.offset.z.toInt)) =
      some (.running, 1, 5, -5, 0) := by
  decide

/-- V-C10: the fourth probe y = −2 after −1, −1, −1 gives the sum −5 and the offset −1. -/
theorem test_calProbe_truncates_toward_zero :
    (stepOn [0x02, 0x00, 0x02, 0xFF, 0xFE, 0x00, 0x00]
        { State.resetWith config4 true with
          pcnt := 3, acc := { x := 4, y := BitVec.ofInt 32 (-3), z := 0 } }).map
        (fun t => (t.acc.x.toInt, t.acc.y.toInt, t.offset.x.toInt, t.offset.y.toInt)) =
      some (6, -5, 1, -1) := by
  decide

/-- V-P2: 65535 and −65535 wrap, and the response of program L3-4. -/
theorem test_sample_wraps :
    (stepOn [0x03, 0, 0, 0, 0, 0, 0, 0, 0, 0x7F, 0xFF, 0x80, 0x00, 0x00, 0x05]
        (ready (-32768) 32767 0)).map (·.output) =
      some [0, 0, 0, 0, 0, 0, 0, 0, 0, 0, 0, 0, 0xFF, 0xFF, 0xFF, 0xFF, 0, 0, 0, 1,
        0, 0, 0, 5] := by
  decide

/-- V-F4 and V-F6: a write at slot 7 moves the cursor to 0; −1 answers `FF FF FF FF`. -/
theorem test_sample_at_slot_seven :
    (stepOn [0x03, 0xFF, 0xFF, 0, 0, 0, 0, 0, 0, 0, 0, 0, 0, 0, 0]
        { ready 0 0 0 with cursor := 7 }).map
        (fun t => (t.cursor, bufEntry t .accelX 7, bufEntry t .accelX 0, t.output.take 4)) =
      some (0, -1, 0, [0xFF, 0xFF, 0xFF, 0xFF]) := by
  decide

/-- V-S1, and the word after calibration of 44_status.md R180. -/
theorem test_status_answers :
    (stepOn [0x04] State.reset).map (·.output) = some [0x0A, 0x00, 0x00, 0x00] ∧
      (stepOn [0x04] { State.reset with phase := .running, pcnt := 1024 }).map (·.output) =
        some [0x0A, 0x04, 0x00, 0x01] := by
  decide

/-- V-S2 and V-S4: the first error wins. -/
theorem test_reserved_header_records_three :
    (stepOn [0x00] State.reset).map (·.err) = some 3 ∧
      (stepOn [0x05] { State.reset with err := 1 }).map (·.err) = some 1 := by
  decide

/-- V-S7: three payload bytes of six, and no step. -/
theorem test_partial_command_waits :
    stepOn [0x02, 0x00, 0x01, 0x00] State.reset = none := by
  decide

/-- V-S8: a reset discards the partial command. -/
theorem test_reset_discards_partial :
    (stepOn [0x02, 0x00, 0x01]
        { State.reset with pcnt := 7, err := 2, input := [.reset, .byte 0x04] }).map
        (fun t => (t.pcnt, t.err, t.input)) =
      some (0, 0, [.byte 0x04]) := by
  decide

/-- The first command after reset, placed by the host. -/
theorem test_fetch_word_runs_first :
    (match step (State.reset.withFetchWord 8 0x04) with
      | .next t => t.output
      | _ => []) = [0x0A, 0x00, 0x00, 0x00] := by
  decide

/-- V-D12. -/
theorem test_decode_sample_frame :
    decodeSample
        { axH := 0x00, axL := 0x01, ayH := 0xFF, ayL := 0xFF, azH := 0x80, azL := 0x00,
          tH := 0x12, tL := 0x34, gxH := 0x7F, gxL := 0xFF, gyH := 0x00, gyL := 0x6E,
          gzH := 0xFF, gzL := 0xFB } =
      { accel := { x := 1, y := -1, z := -32768 }
        temperature := 4660
        gyro := { x := 32767, y := 110, z := -5 } } := by
  decide

/-! ### The assembler: vectors V-A1 to V-A7 -/

theorem test_assemble_commands :
    assemble config4 "DECODE 0x80, 0x00\nCAL_PROBE 10, -5, 0 ; V-A2\nSTATUS".toList =
      some [0x01, 0x80, 0x00, 0x02, 0x00, 0x0A, 0xFF, 0xFB, 0x00, 0x00, 0x04] := by
  decide

theorem test_assemble_sample_g :
    assemble config4 "SAMPLE_G 1, -1, 0".toList =
      some [0x03, 0, 0, 0, 0, 0, 0, 0, 0, 0x00, 0x01, 0xFF, 0xFF, 0x00, 0x00] := by
  decide

theorem test_assemble_edge_operands :
    assemble config4 "CAL_PROBE 0x8000, 65535, -32768".toList =
        some [0x02, 0x80, 0x00, 0xFF, 0xFF, 0x80, 0x00] ∧
      assemble config4 "CAL_PROBE 65536, 0, 0".toList = none := by
  decide

/-- 30_encoding.md R81: `.byte` writes a reserved header; a byte operand is 0..255 (log entry 9). -/
theorem test_assemble_byte_operands :
    assemble config4 ".byte 0xFF, 0, 5".toList = some [0xFF, 0x00, 0x05] ∧
      assemble config4 ".byte 256".toList = none ∧
      assemble config4 "DECODE 0, -1".toList = none := by
  decide

/-! ### Statements with hypotheses: what meets them -/

theorem ready_inv : BlockInv (ready 5 (-5) 0) where
  memory := by decide
  probeCount := by unfold ProbeCountInv; decide
  accumulators := by unfold AccumulatorInv SumOfProbes; decide
  offsets := by unfold OffsetInv; decide
  filterUntouched := by intro h; exact absurd h (by decide)
  errCause := by unfold ErrInv; decide
  runningSums := by
    intro r h a
    obtain rfl := Option.some.inj h
    cases a <;> decide

/-- The default block after one probe (1, −1, 0). -/
def probedOnce : State :=
  { State.reset with pcnt := 1, acc := { x := 1, y := BitVec.ofInt 32 (-1), z := 0 } }

theorem probedOnce_inv : BlockInv probedOnce where
  memory := by decide
  probeCount := by unfold ProbeCountInv; decide
  accumulators := by unfold AccumulatorInv SumOfProbes; decide
  offsets := by unfold OffsetInv; decide
  filterUntouched := by intro _; decide
  errCause := by unfold ErrInv; decide
  runningSums := by
    intro r h a
    obtain rfl := Option.some.inj h
    cases a <;> decide

/-- The block of program L3-5 after its two probes: `OFFSET` = (−65536, 65534, 7). -/
def readyExtra : State :=
  { State.resetWith config1Extra false with
    phase := .running
    pcnt := 2
    acc := { x := BitVec.ofInt 32 (-65536), y := 65534, z := 7 }
    offset := { x := BitVec.ofInt 32 (-65536), y := 65534, z := 7 } }

theorem readyExtra_inv : BlockInv readyExtra where
  memory := by decide
  probeCount := by unfold ProbeCountInv; decide
  accumulators := by unfold AccumulatorInv SumOfProbes; decide
  offsets := by unfold OffsetInv; decide
  filterUntouched := by intro h; exact absurd h (by decide)
  errCause := by unfold ErrInv; decide
  runningSums := fun r h => nomatch (h : (none : Option (Six (BitVec 20))) = some r)

/-- A calibration frame with all bytes 0xFF: every axis −1. -/
def ones : CalFrame :=
  { gxH := 0xFF, gxL := 0xFF, gyH := 0xFF, gyL := 0xFF, gzH := 0xFF, gzL := 0xFF }

/-- A sample frame with every axis 1. -/
def unitSample : SampleFrame :=
  { axH := 0, axL := 1, ayH := 0, ayL := 1, azH := 0, azL := 1, tH := 0, tL := 1,
    gxH := 0, gxL := 1, gyH := 0, gyL := 1, gzH := 0, gzL := 1 }

theorem witness_LengthIsAFunctionOfTheHeader :
    (0x00 : Byte) ≠ 1 ∧ (0x00 : Byte) ≠ 2 ∧ (0x00 : Byte) ≠ 3 ∧
      (0xFF : Byte) ≠ 1 ∧ (0xFF : Byte) ≠ 2 ∧ (0xFF : Byte) ≠ 3 ∧
      (sendFirst (encode (.sample unitSample)) State.reset).input =
        sent (encode (.sample unitSample)) ++ [] := by
  decide

theorem witness_ReservedHeadersRaiseErrorThree :
    ∀ h ∈ ([0x00, 0x05, 0xFF] : List Byte), (h.toNat = 0 ∨ 5 ≤ h.toNat) ∧
      (sendFirst [h] State.reset).input = .byte h :: [] := by
  decide

theorem witness_StepRunsTheDecodedCommand :
    (Instr.decode 0x80 0x01).wellFormed = true ∧
      decodeCommand [0x01, 0x80, 0x01] = .ok (.decode 0x80 0x01, []) ∧
      (sendFirst [0x01, 0x80, 0x01] State.reset).input = sent [0x01, 0x80, 0x01] ++ [] := by
  decide

theorem witness_PartialCommandIsNeverExecuted :
    (([] : List Byte).length + 1 < commandLength 0x02 ∧
        (sendFirst [0x02] State.reset).input = sent (0x02 :: [])) ∧
      (List.replicate 13 (0 : Byte)).length + 1 < commandLength 0x03 ∧
        (sendFirst (0x03 :: List.replicate 13 0) State.reset).input =
          sent (0x03 :: List.replicate 13 0) := by
  decide

theorem witness_ResetSetsEveryElementAndDiscardsThePartialCommand :
    ((([] : List Byte) = [] ∨ ∃ h payload, ([] : List Byte) = h :: payload ∧
        payload.length + 1 < commandLength h) ∧
      (withInput [.reset] (ready 5 (-5) 0)).input = sent [] ++ .reset :: []) ∧
      ((([0x02, 0, 1, 0, 2, 0] : List Byte) = [] ∨ ∃ h payload,
        ([0x02, 0, 1, 0, 2, 0] : List Byte) = h :: payload ∧
          payload.length + 1 < commandLength h) ∧
      (withInput (sent [0x02, 0, 1, 0, 2, 0] ++ [.reset]) (ready 5 (-5) 0)).input =
        sent [0x02, 0, 1, 0, 2, 0] ++ .reset :: []) :=
  ⟨⟨.inl rfl, rfl⟩, .inr ⟨0x02, [0, 1, 0, 2, 0], rfl, by decide⟩, rfl⟩

theorem witness_CommandStreamRunsInOrder :
    (sendFirst ([Instr.status, .calProbe ones].flatMap encode) State.reset).input =
      sent ([Instr.status, .calProbe ones].flatMap encode) ++ [] := by
  decide

theorem witness_DecodeSixteenIsTwosComplement :
    (0x80 : Byte).toNat * 256 + (0x00 : Byte).toNat ≥ 32768 ∧
      (0x7F : Byte).toNat * 256 + (0xFF : Byte).toNat < 32768 := by
  decide

theorem witness_DecodeSixteenIsABijection :
    ((-32768 : Int) ≤ -32768 ∧ (-32768 : Int) ≤ 32767) ∧
      (-32768 : Int) ≤ 32767 ∧ (32767 : Int) ≤ 32767 := by
  decide

/-- The first probe of the default block, and the last that is not the last: its sums are at the
edge of what that many probes can give. -/
theorem witness_ProbeAccumulates :
    (State.reset.phase = .calibrating ∧
        State.reset.pcnt.toNat + 1 < nProbes State.reset.cfg ∧
        fitsSigned 32 (State.reset.acc.x.toInt + decode16 0x80 0x00) = true ∧
        fitsSigned 32 (State.reset.acc.y.toInt + decode16 0x7F 0xFF) = true ∧
        fitsSigned 32 (State.reset.acc.z.toInt + decode16 0x00 0x00) = true) ∧
      ({ State.reset with pcnt := 1022 } : State).phase = .calibrating ∧
        ({ State.reset with pcnt := 1022 } : State).pcnt.toNat + 1 <
          nProbes ({ State.reset with pcnt := 1022 } : State).cfg := by
  decide

theorem witness_LastProbeCompletesCalibration :
    ({ State.reset with pcnt := 1023 } : State).phase = .calibrating ∧
      ({ State.reset with pcnt := 1023 } : State).pcnt.toNat + 1 =
        nProbes ({ State.reset with pcnt := 1023 } : State).cfg ∧
      fitsSigned 32 ((0 : Word).toInt + decode16 0x80 0x00) = true ∧
      fitsSigned 32 ((0 : Word).toInt + decode16 0x7F 0xFF) = true := by
  decide

theorem witness_ProbeWhileRunningIsRejected : (ready 5 (-5) 0).phase = .running := rfl

theorem witness_QuotientRoundsTowardZero :
    1 ≤ 1 ∧ (0 : Int) ≤ 0 ∧ (-1 : Int) < 0 := by decide

theorem witness_AccumulationIsExact :
    BlockInv probedOnce ∧ probedOnce.phase = .calibrating ∧
      ∃ t, exec (.calProbe ones) probedOnce = .next t :=
  ⟨probedOnce_inv, rfl, _, exec_calProbe_calibrating rfl⟩

theorem witness_CalibrationIsTheTruncatedSum :
    [ones].length = nProbes config1 ∧ [ones, ones].length = nProbes config1Extra := by decide

theorem witness_ConstantProbesGiveTheOffset :
    config1.calExtraProbe = false ∧ config1Extra.calExtraProbe = true := ⟨rfl, rfl⟩

theorem witness_BufferSpaceReadsWhatWasWritten :
    ((0 : BitVec 6).toNat < 48 ∧ (47 : BitVec 6).toNat < 48 ∧ State.reset.mem.wf ∧
        (-32768 : Int) ≤ -32768 ∧ (32767 : Int) ≤ 32767) ∧
      48 ≤ (48 : BitVec 6).toNat ∧ 48 ≤ (63 : BitVec 6).toNat := by
  decide

theorem witness_FilterWriteStoresAtTheCursor :
    (ready 5 (-5) 0).mem.wf ∧ (-32768 : Int) ≤ -32768 ∧ (-32768 : Int) ≤ 32767 := by decide

theorem witness_CursorAdvancesOnAcceptedSampleOnly :
    (∃ t, exec (.sample unitSample) (ready 5 (-5) 0) = .next t) ∧
      (∃ t, exec (.sample unitSample) State.reset = .next t) ∧
      ∃ t, exec .status State.reset = .next t :=
  ⟨⟨_, exec_sample_running rfl⟩, ⟨_, exec_sample_calibrating rfl⟩, _, rfl⟩

/-- Nine frames: slot 1 holds the second value, the oldest that counts; seven frames: slot 7 is
not written yet. -/
theorem witness_WindowHoldsTheLastEightValues :
    ((ready 5 (-5) 0).phase = .running ∧ (ready 5 (-5) 0).mem = [] ∧
        (ready 5 (-5) 0).cursor = 0) ∧
      (1 < (List.replicate 9 unitSample).length ∧
        (List.replicate 9 unitSample).length ≤ 1 + 8) ∧
      (List.replicate 7 unitSample).length ≤ (7 : BitVec 3).toNat := by
  decide

theorem witness_AxesAreIndependent :
    (∃ t, filterWrite .accelX 1 (ready 5 (-5) 0) = .ok t) ∧ Axis.accelY ≠ Axis.accelX ∧
      (∀ i, bufEntry (ready 5 (-5) 0) .accelX i = bufEntry (ready 6 (-5) 0) .accelX i) ∧
      (ready 5 (-5) 0).mem.wf ∧ (ready 6 (-5) 0).mem.wf ∧
      (ready 5 (-5) 0).cursor = (ready 6 (-5) 0).cursor ∧
      correctedValue (decodeSample unitSample) (ready 5 (-5) 0).offset .accelX =
        correctedValue (decodeSample unitSample) (ready 6 (-5) 0).offset .accelX ∧
      (∃ t, exec (.sample unitSample) (ready 5 (-5) 0) = .next t) ∧
      ∃ t, exec (.sample unitSample) (ready 6 (-5) 0) = .next t :=
  ⟨⟨_, filterWrite_eq ..⟩, by decide, fun i => rfl, by decide, by decide, rfl, rfl,
    ⟨_, exec_sample_running rfl⟩, _, exec_sample_running rfl⟩

/-- Buffer 0 full of 1. -/
def fullOfOnes : State :=
  { ready 0 0 0 with
    mem := [(1, 1), (3, 1), (5, 1), (7, 1), (9, 1), (11, 1), (13, 1), (15, 1)] }

theorem witness_ConstantWindowHasThatMean : ∀ i, bufEntry fullOfOnes .accelX i = 1 := by decide

theorem witness_RunningSumsAreUnobservable :
    ∃ t, exec (.sample unitSample) (ready 5 (-5) 0) = .next t := ⟨_, exec_sample_running rfl⟩

theorem witness_IncrementalMeanEqualsFullMean :
    BlockInv (ready 5 (-5) 0) ∧ (ready 5 (-5) 0).phase = .running ∧
      (ready 5 (-5) 0).rsum = some rsumZero :=
  ⟨ready_inv, rfl, rfl⟩

/-- For each gyro axis, offsets and differences at both ends of the 16-bit range. -/
theorem witness_BiasCorrectionWrapsToSixteenBits :
    (Axis.gyroX = .gyroX ∧ (0 : Int) = decode16 0x00 0x00 ∧
        (-32767 : Int) = (BitVec.ofInt 32 (-32767)).toInt ∧
        -32768 ≤ (0 : Int) - (-32767) ∧ (0 : Int) - (-32767) ≤ 32767) ∧
      (Axis.gyroY = .gyroY ∧ (-1 : Int) = decode16 0xFF 0xFF ∧
        (32767 : Int) = (BitVec.ofInt 32 32767).toInt ∧ -32768 ≤ (-1 : Int) - 32767 ∧
        (32767 : Int) ≤ 32767) ∧
      Axis.gyroZ = .gyroZ ∧ (-1 : Int) = decode16 0xFF 0xFF ∧
        (-32768 : Int) = (BitVec.ofInt 32 (-32768)).toInt ∧ (-1 : Int) - (-32768) ≤ 32767 := by
  decide

theorem witness_SampleWritesSumsAndAdvances :
    fullOfOnes.phase = .running ∧ fullOfOnes.mem.wf := by decide

theorem witness_SampleAnswersSixBigEndianSums :
    fullOfOnes.phase = .running ∧ ∃ t, exec (.sample unitSample) fullOfOnes = .next t :=
  ⟨rfl, _, exec_sample_running rfl⟩

/-- With the cursor at 0, the first byte of slot 1 of buffer 0 is outside the stored entries. -/
theorem witness_SampleStoresAtTheCursorOnly :
    (∃ t, exec (.sample unitSample) fullOfOnes = .next t) ∧
      ∀ a : Axis, 2 ≠ 2 * (bufAddr a fullOfOnes.cursor).toNat ∧
        2 ≠ 2 * (bufAddr a fullOfOnes.cursor).toNat + 1 :=
  ⟨⟨_, exec_sample_running rfl⟩, fun a => by cases a <;> decide⟩

theorem witness_SampleWhileCalibratingIsRejected :
    probedOnce.phase = .calibrating ∧ ∃ t, exec (.sample unitSample) probedOnce = .next t :=
  ⟨rfl, _, exec_sample_calibrating rfl⟩

theorem witness_DecodeAndStatusAreIdempotent :
    ((Instr.status = .status ∨ ∃ hi lo, Instr.status = .decode hi lo)) ∧
      (Instr.decode 1 2 = .status ∨ ∃ hi lo, Instr.decode 1 2 = .decode hi lo) :=
  ⟨.inl rfl, .inr ⟨1, 2, rfl⟩⟩

theorem witness_RaisingAnErrorKeepsTheFirstCause :
    (probedOnce.phase = .calibrating ∧
        (sendFirst (encode (.sample unitSample)) probedOnce).input =
          sent (encode (.sample unitSample)) ++ []) ∧
      ((ready 5 (-5) 0).phase = .running ∧
        (sendFirst (encode (.calProbe ones)) (ready 5 (-5) 0)).input =
          sent (encode (.calProbe ones)) ++ []) ∧
      ((0x00 : Byte).toNat = 0 ∨ 5 ≤ (0x00 : Byte).toNat) ∧
      ((0x05 : Byte).toNat = 0 ∨ 5 ≤ (0x05 : Byte).toNat) := by
  decide

theorem witness_EachCauseHasItsCommand :
    (∃ t, exec (.sample unitSample) probedOnce = .next t) ∧
      (∃ t, exec (.calProbe ones) (ready 5 (-5) 0) = .next t) ∧
      (∃ t, exec .status probedOnce = .next t) ∧
      (5 ≤ (0x05 : Byte).toNat ∧ (sendFirst [0x05] probedOnce).input = .byte 0x05 :: []) :=
  ⟨⟨_, exec_sample_calibrating rfl⟩, ⟨_, exec_calProbe_running rfl⟩, ⟨_, rfl⟩, by decide, rfl⟩

theorem witness_OnlyResetClearsTheError :
    (∃ t, step { State.reset with err := 1, input := [.byte 0x04] } = .next t) ∧
      (∃ t, step { State.reset with err := 1, input := [.reset] } = .next t) ∧
      ({ State.reset with err := 1 } : State).err ≠ 0 :=
  ⟨⟨_, rfl⟩, ⟨_, rfl⟩, by decide⟩

theorem witness_StepKeepsTheInvariant :
    BlockInv probedOnce ∧ ∃ t, step { probedOnce with input := [.byte 0x04] } = .next t :=
  ⟨probedOnce_inv, _, rfl⟩

theorem witness_OffsetsStayInTheirRange :
    (BlockInv (ready 5 (-5) 0) ∧ (ready 5 (-5) 0).phase = .running ∧
        (ready 5 (-5) 0).cfg.calExtraProbe = false) ∧
      BlockInv readyExtra ∧ readyExtra.phase = .running ∧ readyExtra.cfg.calExtraProbe = true :=
  ⟨⟨ready_inv, rfl, rfl⟩, readyExtra_inv, rfl, rfl⟩

theorem witness_ConfigurationIsNeverWritten :
    ∃ t, step { State.reset with input := [.byte 0x04] } = .next t := ⟨_, rfl⟩

theorem witness_CalibrationIsImmutableWhileRunning :
    (ready 5 (-5) 0).phase = .running ∧
      ∃ t, exec (.calProbe ones) (ready 5 (-5) 0) = .next t :=
  ⟨rfl, _, exec_calProbe_running rfl⟩

theorem witness_OnlyResetLeavesRunning :
    (ready 5 (-5) 0).phase = .running ∧
      ∃ t, step (withInput [.reset] (ready 5 (-5) 0)) = .next t ∧ t.phase = .calibrating :=
  ⟨rfl, _, rfl, rfl⟩

theorem witness_OnlyTheLastProbeEntersRunning :
    (State.resetWith config1 true).phase = .calibrating ∧
      (State.resetWith config1 true).pcnt.toNat < nProbes config1 ∧
      (stepOn (encode (.calProbe ones)) (State.resetWith config1 true)).map (·.phase) =
        some .running := by
  decide

theorem witness_OnlySampleWritesTheFilter :
    (∃ t, exec (.sample unitSample) (ready 5 (-5) 0) = .next t) ∧
      ∃ t, exec (.calProbe ones) probedOnce = .next t :=
  ⟨⟨_, exec_sample_running rfl⟩, _, exec_calProbe_calibrating rfl⟩

theorem witness_OnlyProbesWriteTheAccumulators :
    (∃ t, exec (.calProbe ones) probedOnce = .next t) ∧
      ∃ t, exec (.decode 1 2) probedOnce = .next t :=
  ⟨⟨_, exec_calProbe_calibrating rfl⟩, _, rfl⟩

theorem witness_AccumulatorsAreUnreadWhileRunning :
    (ready 5 (-5) 0).phase = .running ∧
      ∃ t, exec (.sample unitSample) (ready 5 (-5) 0) = .next t :=
  ⟨rfl, _, exec_sample_running rfl⟩

theorem witness_OffsetsAreUnreadWhileCalibrating :
    (probedOnce.phase = .calibrating ∧ ∃ t, exec (.calProbe ones) probedOnce = .next t) ∧
      (State.resetWith config1 true).phase = .calibrating ∧
      ∃ t, exec (.calProbe ones) (State.resetWith config1 true) = .next t :=
  ⟨⟨rfl, _, exec_calProbe_calibrating rfl⟩, rfl, _, exec_calProbe_calibrating rfl⟩

theorem witness_ConfigurationsOutsideTheRangeAreRefused :
    (Config.ofParams? 15 1).isSome = true ∧ (Config.ofParams? 0 0).isSome = true ∧
      Config.ofParams? 2 0 = some config4 := by
  decide

theorem witness_AssembledFieldDecodesToItsValue :
    ((-32768 : Int) ≤ -32768 ∧ (-32768 : Int) ≤ 65535) ∧
      ((-32768 : Int) ≤ 65535 ∧ (65535 : Int) ≤ 65535) ∧
      ((-32769 : Int) < -32768 ∨ (65535 : Int) < -32769) ∧
      ((65536 : Int) < -32768 ∨ (65535 : Int) < 65536) := by
  decide

/-- One line per hypothesis, in the order of the clauses, at the ends of each range. -/
theorem witness_AssembledCommandsDecode :
    (∀ v ∈ ([-32768, 65535, 0] : List Int), operandInRange v = true) ∧
      (∃ v ∈ ([0, 65536, -32769] : List Int), operandInRange v = false) ∧
      (∀ v ∈ ([-32768, 65535, 0, 1, -1, 32767, 32768] : List Int), operandInRange v = true) ∧
      (∃ v ∈ ([0, 0, 0, 0, 0, 0, -32769] : List Int), operandInRange v = false) ∧
      (((0 : Int) ≤ 0 ∧ (0 : Int) ≤ 255) ∧ (0 : Int) ≤ 255 ∧ (255 : Int) ≤ 255) ∧
      ¬ (((0 : Int) ≤ 256 ∧ (256 : Int) ≤ 255) ∧ (0 : Int) ≤ -1 ∧ (-1 : Int) ≤ 255) ∧
      (∀ v ∈ ([0, 5, 255] : List Int), 0 ≤ v ∧ v ≤ 255) ∧
      ∃ v ∈ ([0, -1] : List Int), ¬ (0 ≤ v ∧ v ≤ 255) := by
  decide

end Sys2Proof.Tests.Slice0
end

section
/-! PROOFS of the encoding family (30_encoding.md R77, R78): the rules about a command's bytes and
about a step on them, then the obligations. -/

namespace Sys2Proof.Machine

/-! ### The encoder, the decoder and the length -/

/-- The law of Sys2Proof/Laws/PerInstr.lean for every command. -/
theorem encodedLength_statement (i : Instr) : Laws.EncodedLength.Statement i := by
  cases i with
  | decode hi lo => exact Laws.EncodedLength.decode hi lo
  | calProbe f => exact Laws.EncodedLength.calProbe f
  | sample f => exact Laws.EncodedLength.sample f
  | status => exact Laws.EncodedLength.status

/-- 30_encoding.md R77 for the encoder. -/
theorem encode_length (i : Instr) : (encode i).length = commandLength (headerOf i) := by
  obtain ⟨hlen, -⟩ := encodedLength_statement i
  exact hlen

/-- Every header but those of DECODE, CAL_PROBE and SAMPLE stands alone (30_encoding.md R77). -/
theorem commandLength_eq_one {h : Byte} (h1 : h.toNat ≠ 1) (h2 : h.toNat ≠ 2)
    (h3 : h.toNat ≠ 3) : commandLength h = 1 := by
  rw [commandLength]
  split
  case h_1 e => exact absurd e h1
  case h_2 e => exact absurd e h2
  case h_3 e => exact absurd e h3
  case h_4 => rfl

/-- A reserved header is one byte long (30_encoding.md R78). -/
theorem commandLength_reserved {h : Byte} (hh : h.toNat = 0 ∨ 5 ≤ h.toNat) :
    commandLength h = 1 :=
  commandLength_eq_one (by omega) (by omega) (by omega)

/-- The decoder reads back what the encoder wrote, with nothing left over. -/
theorem decodeCommand_encode (i : Instr) : decodeCommand (encode i) = .ok (i, []) := by
  cases i <;> rfl

/-- The decoder calls no header reserved but 0x00 and 0x05..0xFF (30_encoding.md R78). -/
theorem reserved_of_decodeCommand {h : Byte} {rest : List Byte}
    (hd : decodeCommand (h :: rest) = .error (.reservedOpcode h)) :
    h.toNat = 0 ∨ 5 ≤ h.toNat := by
  unfold decodeCommand at hd
  split at hd
  case h_1 => cases hd
  case h_2 hcons =>
    cases hcons
    split at hd
    case h_1 => split at hd <;> cases hd
    case h_2 => split at hd <;> cases hd
    case h_3 => split at hd <;> cases hd
    case h_4 => cases hd
    case h_5 h1 h2 h3 h4 =>
      have hne : h.toNat ≠ 1 ∧ h.toNat ≠ 2 ∧ h.toNat ≠ 3 ∧ h.toNat ≠ 4 := ⟨h1, h2, h3, h4⟩
      omega

/-! ### A command and the remaining input -/

/-- A command never stops the block: each of the four answers a next state in every state. -/
theorem exec_isNext (i : Instr) (s : State) : ∃ t, exec i s = .next t := by
  cases i with
  | decode hi lo => exact ⟨_, rfl⟩
  | calProbe f =>
    cases hp : s.phase with
    | calibrating => exact ⟨_, exec_calProbe_calibrating hp⟩
    | running => exact ⟨_, exec_calProbe_running hp⟩
  | sample f =>
    cases hp : s.phase with
    | calibrating => exact ⟨_, exec_sample_calibrating hp⟩
    | running => exact ⟨_, exec_sample_running hp⟩
  | status => exact ⟨_, rfl⟩

@[simp] theorem probed_input (f : CalFrame) (s : State) : (probed f s).input = s.input := by
  rw [probed]
  split <;> simp

/-- A command's meaning takes nothing from the input: the step took its bytes before. -/
theorem exec_input {i : Instr} {s t : State} (h : exec i s = .next t) : t.input = s.input := by
  rcases exec_cases h with ⟨out, rfl, -⟩ | ⟨f, -, -, rfl⟩ | ⟨f, -, -, rfl⟩ | ⟨f, -, -, rfl⟩ |
    ⟨f, -, -, rfl⟩
  · exact respond_input ..
  · exact probed_input ..
  · exact raiseCmdError_input ..
  · exact cycled_input ..
  · exact raiseCmdError_input ..

/-! ### A step on the bytes of one command -/

/-- A step takes a whole command's bytes and runs what they decode to. -/
theorem step_sent {h : Byte} {ps : List Byte} (hl : ps.length + 1 = commandLength h) {s : State}
    {rest : List HostAction} (hs : s.input = sent (h :: ps) ++ rest) :
    step s = runCommand (h :: ps) (withInput rest s) := by
  rw [step, hs, fetch_sent hl]
  rfl

/-- A step on an encoded command runs that command, its bytes consumed. -/
theorem step_encode {i : Instr} {s : State} {rest : List HostAction}
    (hs : s.input = sent (encode i) ++ rest) : step s = exec i (withInput rest s) := by
  have hrun : step s = runCommand (encode i) (withInput rest s) := step_sent (encode_length i) hs
  rw [hrun, runCommand, decodeCommand_encode]

/-- A step on a reserved header consumes it and raises `CmdError(3)` (30_encoding.md R78). -/
theorem step_reserved {h : Byte} (hh : h.toNat = 0 ∨ 5 ≤ h.toNat) {s : State}
    {rest : List HostAction} (hs : s.input = .byte h :: rest) :
    step s = .next (raiseCmdError .reservedOpcode (withInput rest s)) := by
  have hrun : step s = runCommand [h] (withInput rest s) :=
    step_sent (ps := []) (commandLength_reserved hh).symm hs
  rw [hrun, runCommand, decodeCommand_reserved hh]
  rfl

/-! ### The obligations -/

/-- Settles O2: the lengths are read off `commandLength`; a step on an encoded command is that
command's meaning after the fetch, which answers a next state and leaves the input alone. -/
theorem lengthIsAFunctionOfTheHeader : Obligations.LengthIsAFunctionOfTheHeader := by
  refine ⟨⟨rfl, rfl, rfl⟩, fun h h1 h2 h3 => ?_, encode_length, fun i s rest hs => ?_⟩
  · exact commandLength_eq_one (BitVec.toNat_ne_iff_ne.2 h1) (BitVec.toNat_ne_iff_ne.2 h2)
      (BitVec.toNat_ne_iff_ne.2 h3)
  · obtain ⟨t, ht⟩ := exec_isNext i (withInput rest s)
    exact ⟨t, (step_encode hs).trans ht, exec_input ht⟩

/-- Settles O3: the decoder's last branch is exactly the reserved headers, and a step on one is
`raiseCmdError` after the one-byte fetch. -/
theorem reservedHeadersRaiseErrorThree : Obligations.ReservedHeadersRaiseErrorThree :=
  ⟨fun _ rest => ⟨reserved_of_decodeCommand, fun hh => decodeCommand_reserved hh rest⟩,
    fun _ _ _ hh hs => ⟨commandLength_reserved hh, step_reserved hh hs⟩,
    decodeCommand_encode⟩

end Sys2Proof.Machine
end

section
/-! PROOFS of the decoder family (40_decoder.md R100, R102, R105): the cases of `decode16`, the
answer of DECODE and what a cycle reads of its frame, then the obligations. -/

namespace Sys2Proof.Machine

/-! ### The Register Codec -/

theorem decode16_of_ge {h l : Byte} (hu : h.toNat * 256 + l.toNat ≥ 32768) :
    decode16 h l = ((h.toNat * 256 + l.toNat : Nat) : Int) - 65536 := if_pos hu

theorem decode16_of_lt {h l : Byte} (hu : h.toNat * 256 + l.toNat < 32768) :
    decode16 h l = ((h.toNat * 256 + l.toNat : Nat) : Int) := if_neg (Nat.not_le.2 hu)

/-- The rule's case split is the sign extension of 00_scope.md R8, its two branches exchanged. -/
theorem decode16_eq_sext (h l : Byte) : decode16 h l = sext 16 (h.toNat * 256 + l.toNat) := by
  rcases Nat.lt_or_ge (h.toNat * 256 + l.toNat) 32768 with hu | hu
  · rw [decode16_of_lt hu]
    exact (if_pos hu).symm
  · rw [decode16_of_ge hu]
    exact (if_neg (Nat.not_lt.2 hu)).symm

/-! ### DECODE -/

/-- The response bytes of a joined pair are the pair, high byte first (20_memory.md R54). -/
theorem halfBytes_append (h l : Byte) : halfBytes (h ++ l : BitVec (8 + 8)) = [h, l] := by
  rw [halfBytes, high_of_append, low_of_append]

/-- DECODE answers its own operand bytes: its value fits the 16 bits it is cut to. -/
theorem exec_decode (hi lo : Byte) (s : State) :
    exec (.decode hi lo) s = .next (respond [hi, lo] s) := by
  show Host.Outcome.next (respond (halfBytes (narrowSigned 16 (decode16 hi lo))) s) = _
  rw [narrow_decode16, halfBytes_append]

/-! ### The temperature of a frame -/

theorem correctedValue_temperature (r : RawSample) (v : Int) (offset : Xyz Word) :
    correctedValue { r with temperature := v } offset = correctedValue r offset := by
  funext a
  cases a <;> rfl

/-- The temperature bytes of a frame decode to its temperature and to nothing else. -/
theorem decodeSample_temperature (f : SampleFrame) (tH tL : Byte) :
    decodeSample { f with tH := tH, tL := tL } =
      { decodeSample f with temperature := decode16 tH tL } := rfl

theorem cycled_temperature (f : SampleFrame) (tH tL : Byte) (s : State) :
    cycled { f with tH := tH, tL := tL } s = cycled f s := by
  refine cycled_congr_values ?_
  rw [cycleValues, decodeSample_temperature, correctedValue_temperature]

/-! ### The obligations -/

/-- Settles O11: the library's reading is `decode16_eq_toInt`, the others are the case split. -/
theorem decodeSixteenIsTwosComplement : Obligations.DecodeSixteenIsTwosComplement :=
  fun h l => ⟨decode16_eq_toInt h l, decode16_eq_sext h l, decode16_of_ge, decode16_of_lt⟩

/-- Settles O13: `exec_decode` is the completion, the answer and the frame at once. -/
theorem decodeAnswersItsValue : Obligations.DecodeAnswersItsValue :=
  fun hi lo s => ⟨rfl, exec_decode hi lo s, (decode16_eq_toInt hi lo).symm⟩

/-- Settles O14: SAMPLE reads no frame while CALIBRATING, and while RUNNING a cycle reads its frame
through the corrected values alone, where the temperature does not enter. -/
theorem temperatureIsDiscarded : Obligations.TemperatureIsDiscarded := by
  intro f tH tL s
  cases hp : s.phase with
  | calibrating => rw [exec_sample_calibrating hp, exec_sample_calibrating hp]
  | running => rw [exec_sample_running hp, exec_sample_running hp, cycled_temperature]

end Sys2Proof.Machine
end

section
/-! PROOFS of the calibrator family (41_calibrator.md R121, R123, R125): the truncating quotient
and the offset register that takes it, the last probe, then the obligations. -/

namespace Sys2Proof.Machine

/-! ### The truncating quotient -/

/-- From zero up, truncating is the floor (41_calibrator.md R123). -/
theorem tdiv_of_nonneg {n : Int} (hn : 0 ≤ n) (d : Nat) : tdiv n d = Int.fdiv n d := by
  rw [tdiv_eq, Int.fdiv_eq_tdiv_of_nonneg hn (Int.natCast_nonneg d)]

theorem tdiv_neg (n : Int) (d : Nat) : tdiv (-n) d = -tdiv n d := by
  rw [tdiv_eq, tdiv_eq, Int.neg_tdiv]

/-- Below zero, truncating is the floor of the magnitude, negated (41_calibrator.md R123). -/
theorem tdiv_of_neg {n : Int} (hn : n < 0) (d : Nat) : tdiv n d = -Int.fdiv (-n) d := by
  rw [← tdiv_of_nonneg (by omega), tdiv_neg, neg_neg]

/-- A quotient lies between zero and its dividend. -/
theorem tdiv_between (n : Int) (d : Nat) :
    (0 ≤ tdiv n d ∧ tdiv n d ≤ n) ∨ (n ≤ tdiv n d ∧ tdiv n d ≤ 0) := by
  have hpos : ∀ m : Int, 0 ≤ m → 0 ≤ tdiv m d ∧ tdiv m d ≤ m := fun m hm => by
    rw [tdiv_eq]
    exact ⟨Int.tdiv_nonneg hm (Int.natCast_nonneg d), Int.tdiv_le_self d hm⟩
  rcases Int.le_total 0 n with hn | hn
  · exact .inl (hpos n hn)
  · have hneg := hpos (-n) (by omega)
    rw [tdiv_neg] at hneg
    exact .inr (by omega)

/-- An offset register takes every quotient of an accumulator exactly: dividing does not grow it
(10_state.md R24). -/
theorem toInt_narrowSigned_tdiv (v : Word) (d : Nat) :
    (narrowSigned 32 (tdiv v.toInt d)).toInt = Int.tdiv v.toInt d := by
  have hlo := BitVec.le_toInt v
  have hhi := BitVec.toInt_lt (x := v)
  have hq := tdiv_between v.toInt d
  have hfits : fitsSigned 32 (tdiv v.toInt d) = true := by
    rw [fitsSigned, decide_eq_true_eq]
    omega
  rw [toInt_narrowSigned hfits (by omega), tdiv_eq]

/-! ### A probe and the counter -/

/-- The counter holds every count up to `N_PROBES` (10_state.md R22). -/
theorem accumulate_pcnt_toNat (g : Xyz Int) {s : State} (h : s.pcnt.toNat < nProbes s.cfg) :
    (accumulate g s).pcnt.toNat = s.pcnt.toNat + 1 := by
  have hmax := nProbes_le s.cfg
  exact toNat_narrowUnsigned (by omega)

/-- The probe that makes `PCNT` equal to `N_PROBES` completes the calibration
(41_calibrator.md R120, R121). -/
theorem probed_last (f : CalFrame) {s : State} (h : s.pcnt.toNat + 1 = nProbes s.cfg) :
    probed f s = calComplete (accumulate (decodeGyro f) s) :=
  if_pos ((accumulate_pcnt_toNat _ (by omega)).trans h)

/-! ### The obligations -/

/-- Settles O16: the last probe is `calComplete` after `accumulate`; an accumulator reads back a
sum that fits it, and an offset reads back its quotient always. -/
theorem lastProbeCompletesCalibration : Obligations.LastProbeCompletesCalibration := by
  intro f s hphase hlast
  refine ⟨calComplete (accumulate (decodeGyro f) s), ?completes, rfl, ?counter,
    ?accX, ?accY, ?accZ, ?offsetX, ?offsetY, ?offsetZ⟩
  case completes => rw [exec_calProbe_calibrating hphase, probed_last f hlast]
  case counter => exact (accumulate_pcnt_toNat (decodeGyro f) (by omega)).trans hlast
  case accX | accY | accZ => exact fun hfits => toInt_narrowSigned hfits (by omega)
  case offsetX | offsetY | offsetZ => exact toInt_narrowSigned_tdiv _ (divisorP s.cfg)

/-- Settles O18: the sign split is `tdiv_of_nonneg` and `tdiv_of_neg`; the table is computed. -/
theorem quotientRoundsTowardZero : Obligations.QuotientRoundsTowardZero :=
  ⟨fun _ p _ => ⟨fun hn => tdiv_of_nonneg hn p, fun hn => tdiv_of_neg hn p⟩, by decide⟩

/-- Settles O17: the rejection is `raiseCmdError`, whose only write is the sticky `ERR`. -/
theorem probeWhileRunningIsRejected : Obligations.ProbeWhileRunningIsRejected :=
  fun _ _ hphase => exec_calProbe_running hphase

end Sys2Proof.Machine
end

section
/-! PROOFS of the filter family (42_filter.md R148): what a write leaves unchanged, what a sum
reads, what a cycle reads of one axis, then the obligation. -/

namespace Sys2Proof.Machine

/-! ### Separate buffers -/

/-- A write to one axis leaves every entry of another: the two buffers share no address. -/
theorem bufEntry_filterWrite_other {a b : Axis} {v : Int} {s t : State}
    (hw : filterWrite a v s = .ok t) (hab : b ≠ a) (i : BitVec 3) :
    bufEntry t b i = bufEntry s b i := by
  have haddr : (bufAddr b i).toNat ≠ (bufAddr a s.cursor).toNat := fun h =>
    hab (bufAddr_toNat_inj.mp h).1
  rw [filterWrite_eq] at hw
  obtain rfl := Except.ok.inj hw
  rw [bufEntry, bufEntry, readEntry_writeEntry_other _ _ haddr]

/-- A sum reads only its own buffer. -/
theorem windowSum_congr_buffer {a : Axis} {s s' : State}
    (hbuf : ∀ i, bufEntry s a i = bufEntry s' a i) : windowSum s a = windowSum s' a := by
  rw [windowSum, windowSum, funext hbuf]

/-- After a cycle an axis's numerator is fixed by that axis's buffer, its corrected value and the
cursor. -/
theorem windowSum_cycled_congr {a : Axis} {f f' : SampleFrame} {s s' : State} (hm : s.mem.wf)
    (hm' : s'.mem.wf) (hcursor : s.cursor = s'.cursor)
    (hbuf : ∀ i, bufEntry s a i = bufEntry s' a i)
    (hvalue : cycleValues f s a = cycleValues f' s' a) :
    windowSum (cycled f s) a = windowSum (cycled f' s') a := by
  rw [windowSum_cycled f hm, windowSum_cycled f' hm', windowSum_congr_buffer hbuf, hcursor, hbuf,
    hvalue]

/-! ### The obligation -/

/-- Settles O28: the three rules above, one for each clause; an accepted SAMPLE leaves `cycled`. -/
theorem axesAreIndependent : Obligations.AxesAreIndependent := by
  refine ⟨fun a b v s t hw hab => bufEntry_filterWrite_other hw hab, ?sums, ?sample⟩
  case sums =>
    intro a s s' hbuf
    rw [filterSum_eq, filterSum_eq, windowSum_congr_buffer hbuf]
  case sample =>
    intro a f f' s s' t t' hm hm' hphase hphase' hcursor hbuf hvalue ht ht'
    rw [exec_sample_running hphase] at ht
    rw [exec_sample_running hphase'] at ht'
    obtain rfl := Host.Outcome.next.inj ht
    obtain rfl := Host.Outcome.next.inj ht'
    exact windowSum_cycled_congr hm hm' hcursor hbuf hvalue

end Sys2Proof.Machine
end

section
/-! PROOFS of the pipeline family (43_pipeline.md R162, R164): the wrapped difference of a gyro
value and its offset, then the obligations. -/

namespace Sys2Proof.Machine

/-! ### Bias correction -/

/-- In the 16-bit range the wrap is the identity (43_pipeline.md R162). -/
theorem wrap16_of_range {v : Int} (hlo : -32768 ≤ v) (hhi : v ≤ 32767) : wrap 16 v = v := by
  rw [wrap16_eq]
  exact BitVec.toInt_ofInt_eq_self (by omega) hlo (by omega)

/-- A decoded value less a 16-bit offset needs 17 bits at most (43_pipeline.md R162). -/
theorem decode16_sub_range (h l : Byte) {off : Int} (hlo : -32768 ≤ off) (hhi : off ≤ 32767) :
    -65535 ≤ decode16 h l - off ∧ decode16 h l - off ≤ 65535 := by
  have hdecoded := decode16_range h l
  omega

/-! ### The obligations -/

/-- Settles O32: acceleration is read off the frame, the temperature is
`correctedValue_temperature`, and a gyro axis is the wrap of its difference, whose three clauses
are `wrap16_eq`, `wrap16_of_range` and `decode16_sub_range` for its own bytes. -/
theorem biasCorrectionWrapsToSixteenBits : Obligations.BiasCorrectionWrapsToSixteenBits := by
  intro f o
  refine ⟨rfl, rfl, rfl, ?temperature, ?gyro⟩
  case temperature =>
    intro tH tL
    rw [decodeSample_temperature, correctedValue_temperature]
  case gyro =>
    rintro a g off (⟨rfl, rfl, rfl⟩ | ⟨rfl, rfl, rfl⟩ | ⟨rfl, rfl, rfl⟩)
    all_goals exact ⟨wrap16_eq _, wrap16_of_range, decode16_sub_range _ _⟩

/-- Settles O36: in either state the rejection is `raiseCmdError`, whose only write is the sticky
`ERR`; it reads `ERR` alone, so another `OFFSET` passes through it. -/
theorem sampleWhileCalibratingIsRejected : Obligations.SampleWhileCalibratingIsRejected := by
  intro f s hphase
  refine ⟨exec_sample_calibrating hphase, fun o t ht => ?_⟩
  rw [exec_sample_calibrating hphase] at ht
  obtain rfl := Host.Outcome.next.inj ht
  exact exec_sample_calibrating (s := { s with offset := o }) hphase

end Sys2Proof.Machine
end

section
/-! PROOFS of the status family (44_status.md R180): the value of four response bytes and of the
STATUS word, then the obligation. -/

namespace Sys2Proof.Machine

/-! ### Response words and bit fields -/

/-- The response bytes of a word are its base-256 digits, high byte first (20_memory.md R54). -/
theorem wordBytes_value (v : Word) :
    (v.extractLsb' 24 8).toNat * 2 ^ 24 + (v.extractLsb' 16 8).toNat * 2 ^ 16 +
      (v.extractLsb' 8 8).toNat * 2 ^ 8 + (v.extractLsb' 0 8).toNat = v.toNat := by
  have := v.isLt
  simp only [BitVec.extractLsb'_toNat, Nat.shiftRight_eq_div_pow]
  omega

/-- A field moved to its place keeps its value, if the place is inside the word. -/
theorem toNat_field {n k : Nat} (hk : n + k ≤ 32) (f : BitVec n) :
    (f.zeroExtend 32 <<< k).toNat = f.toNat * 2 ^ k := by
  have hfit : f.toNat * 2 ^ k < 2 ^ 32 := calc
    f.toNat * 2 ^ k < 2 ^ n * 2 ^ k := Nat.mul_lt_mul_of_pos_right f.isLt (Nat.two_pow_pos k)
    _ = 2 ^ (n + k) := (pow_add 2 n k).symm
    _ ≤ 2 ^ 32 := Nat.pow_le_pow_right (by norm_num) hk
  rw [BitVec.toNat_shiftLeft, BitVec.toNat_setWidth_of_le (by omega), Nat.shiftLeft_eq,
    Nat.mod_eq_of_lt hfit]

/-- A field ORed in right below the fields of `v` is the next digit of their value. -/
theorem toNat_or_field {n k : Nat} (hk : n + k ≤ 32) {v : Word} {a : Nat}
    (hv : v.toNat = a * 2 ^ (n + k)) (f : BitVec n) :
    (v ||| f.zeroExtend 32 <<< k).toNat = (a * 2 ^ n + f.toNat) * 2 ^ k := by
  have hor : 2 ^ n * a + f.toNat = 2 ^ n * a ||| f.toNat := Nat.two_pow_add_eq_or_of_lt f.isLt a
  rw [BitVec.toNat_or, hv, toNat_field hk, pow_add, ← mul_assoc, ← Nat.shiftLeft_eq,
    ← Nat.shiftLeft_eq _ k, ← Nat.shiftLeft_or_distrib, Nat.shiftLeft_eq _ k, mul_comm a, hor]

/-! ### The STATUS word -/

theorem extraBit_toNat (c : Config) : (extraBit c).toNat = if c.calExtraProbe then 1 else 0 := by
  rw [extraBit]
  split <;> rfl

/-- `P_LOG2` fills its 4-bit field of the STATUS word (10_state.md R30). -/
theorem pLog2_field (c : Config) :
    BitVec.ofNat 32 c.pLog2.val = (BitVec.ofFin c.pLog2 : BitVec 4).zeroExtend 32 := by
  apply BitVec.eq_of_toNat_eq
  rw [BitVec.toNat_ofNat, BitVec.toNat_setWidth, BitVec.toNat_ofFin]

/-- The fields of the STATUS word stand right below each other (10_state.md R30), so its value is
the fields as digits, `CAL_EXTRA_PROBE` the highest. -/
theorem statusWord_toNat (s : State) :
    (statusWord s).toNat =
      (((((extraBit s.cfg).toNat * 2 ^ 4 + s.cfg.pLog2.val) * 2 ^ 16 + s.pcnt.toNat) * 2 ^ 4 +
        s.err.toNat) * 2 ^ 3 + s.cursor.toNat) * 2 ^ 1 + s.phase.bit.toNat := by
  have hextra := toNat_field (k := 28) (by norm_num) (extraBit s.cfg)
  have hpLog2 := toNat_or_field (k := 24) (by norm_num) hextra (BitVec.ofFin s.cfg.pLog2)
  have hpcnt := toNat_or_field (k := 8) (by norm_num) hpLog2 s.pcnt
  have herr := toNat_or_field (k := 4) (by norm_num) hpcnt s.err
  have hcursor := toNat_or_field (k := 1) (by norm_num) herr s.cursor
  have hphase := toNat_or_field (k := 0) (by norm_num) hcursor s.phase.bit
  rw [pow_zero, mul_one, BitVec.shiftLeft_zero] at hphase
  rw [statusWord, pLog2_field]
  exact hphase

/-- STATUS completes in either phase and is its response alone. -/
theorem exec_status (s : State) :
    exec .status s = .next (respond (wordBytes (statusWord s)) s) := rfl

/-! ### The obligation -/

/-- Settles O37: `exec_status` is the completion and the frame; its four bytes have the value of the
STATUS word, which is `statusWord_toNat`. -/
theorem statusAnswersTheStatusWord : Obligations.StatusAnswersTheStatusWord := by
  refine ⟨rfl, fun s => ⟨_, _, _, _, ?value, exec_status s⟩⟩
  rw [wordBytes_value, statusWord_toNat, extraBit_toNat]
  split <;> omega

end Sys2Proof.Machine
end

section
/-! PROOFS of the errors family (60_exceptions.md R190 to R192): what raising a cause, a command
and a step do to `ERR`, then the obligations. -/

namespace Sys2Proof.Machine

/-! ### What writes `ERR` -/

@[simp] theorem probed_err (f : CalFrame) (s : State) : (probed f s).err = s.err := by
  rw [probed]
  split <;> simp

/-- Raising a cause after another writes nothing: the first one wins (60_exceptions.md R191). -/
theorem raiseCmdError_err_of_ne_zero (c : CmdError) {s : State} (he : s.err ≠ 0) :
    (raiseCmdError c s).err = s.err :=
  stickyErr_of_ne_zero he c

/-- No command clears or replaces a recorded cause (60_exceptions.md R192). -/
theorem exec_err_of_ne_zero {i : Instr} {s t : State} (h : exec i s = .next t) (he : s.err ≠ 0) :
    t.err = s.err := by
  rcases exec_cases h with ⟨out, rfl, -⟩ | ⟨f, -, -, rfl⟩ | ⟨f, -, -, rfl⟩ | ⟨f, -, -, rfl⟩ |
    ⟨f, -, -, rfl⟩
  · exact respond_err ..
  · exact probed_err ..
  · exact raiseCmdError_err_of_ne_zero _ he
  · exact cycled_err ..
  · exact raiseCmdError_err_of_ne_zero _ he

/-! ### The obligations -/

/-- Settles O41: `raiseCmdError` writes the sticky `ERR` alone, and a step on a rejected command is
`raiseCmdError` after the fetch has consumed its frame. -/
theorem raisingAnErrorKeepsTheFirstCause : Obligations.RaisingAnErrorKeepsTheFirstCause := by
  refine ⟨fun _ _ => rfl, fun f s rest hphase hs => ?sample, fun f s rest hphase hs => ?probe,
    fun _ _ _ hh hs => step_reserved hh hs⟩
  case sample =>
    have hphase' : (withInput rest s).phase = .calibrating := hphase
    exact (step_encode hs).trans (exec_sample_calibrating hphase')
  case probe =>
    have hphase' : (withInput rest s).phase = .running := hphase
    exact (step_encode hs).trans (exec_calProbe_running hphase')

/-- Settles O42: along `exec_cases`, the two rejections record their own code and every other end
leaves `ERR`; a reserved header is `step_reserved`. -/
theorem eachCauseHasItsCommand : Obligations.EachCauseHasItsCommand := by
  refine ⟨⟨rfl, rfl, rfl⟩, fun i s t h => ?command,
    fun _ _ _ hh hs => ⟨_, step_reserved hh hs, rfl⟩⟩
  rcases exec_cases h with ⟨out, rfl, rfl | ⟨hi, lo, rfl⟩⟩ | ⟨f, rfl, hphase, rfl⟩ |
    ⟨f, rfl, hphase, rfl⟩ | ⟨f, rfl, hphase, rfl⟩ | ⟨f, rfl, hphase, rfl⟩
  · exact respond_err ..
  · exact respond_err ..
  · rw [hphase]
    exact probed_err ..
  · rw [hphase]
    exact raiseCmdError_err ..
  · rw [hphase]
    exact cycled_err ..
  · rw [hphase]
    exact raiseCmdError_err ..

/-- Settles O43: of the ways a step can go on, a command and a reserved header keep a recorded
cause, so a step that does not is the reset. -/
theorem onlyResetClearsTheError : Obligations.OnlyResetClearsTheError := by
  intro s t h he
  rcases step_cases h with ⟨bs, rest, hs, rfl⟩ | ⟨i, rest, -, hexec⟩ | ⟨b, rest, -, rfl⟩
  · exact .inr ⟨hostReset_err _, by simp [hs], rest, rfl⟩
  · exact .inl (exec_err_of_ne_zero (s := withInput rest s) hexec he)
  · exact .inl (raiseCmdError_err_of_ne_zero _ he)

end Sys2Proof.Machine
end

section
/-! PROOFS of the reset family (70_reset_and_hazards.md R210): the fetch of a reset and the step on
it, then the obligation. -/

namespace Sys2Proof.Machine

/-! ### A step on a reset -/

/-- A fetch meets the reset behind no byte, or behind a partial command that it drops. -/
theorem fetch_reset {pending : List Byte}
    (hp : pending = [] ∨ ∃ h payload, pending = h :: payload ∧ payload.length + 1 < commandLength h)
    (rest : List HostAction) : fetch (sent pending ++ .reset :: rest) = .reset rest := by
  rcases hp with rfl | ⟨h, payload, rfl, hshort⟩
  · rfl
  · have hmissing : payload.length < commandLength h - 1 := by omega
    exact fetchPayload_reset hmissing [h] rest

/-- A step on a reset is `hostReset`, the reset and the partial command before it consumed. -/
theorem step_reset {s : State} {pending : List Byte} {rest : List HostAction}
    (hp : pending = [] ∨ ∃ h payload, pending = h :: payload ∧ payload.length + 1 < commandLength h)
    (hs : s.input = sent pending ++ .reset :: rest) :
    step s = .next (hostReset (withInput rest s)) := by
  rw [step, hs, fetch_reset hp]
  rfl

/-- Every buffer entry is 0 after a reset (10_state.md R26). -/
@[simp] theorem bufEntry_hostReset (s : State) (a : Axis) (i : BitVec 3) :
    bufEntry (hostReset s) a i = 0 :=
  bufEntry_nil (hostReset_mem s) a i

/-! ### The obligation -/

/-- Settles O8: the step is `step_reset`, whose `hostReset` is the named reset image, and the
entries are `bufEntry_hostReset`. -/
theorem resetSetsEveryElementAndDiscardsThePartialCommand :
    Obligations.ResetSetsEveryElementAndDiscardsThePartialCommand := by
  intro s pending rest hp hs
  have hstep : step s = .next (hostReset (withInput rest s)) := step_reset hp hs
  refine ⟨hstep, fun t ht a i => ?entries⟩
  case entries =>
    obtain rfl := Host.Outcome.next.inj (hstep.symm.trans ht)
    exact bufEntry_hostReset _ a i

end Sys2Proof.Machine
end

section
/-! PROOFS about the command stream (30_encoding.md sections 1, 2 and 4, 20_memory.md section 5,
60_exceptions.md section 7): the decoder inverts the encoder, where a step stops, and a command
against the input it has not read, then the obligations. -/

namespace Sys2Proof.Machine

/-! ### The decoder and the encoder -/

/-- The decoder takes an encoded command off the head of the bytes and leaves the rest. -/
theorem decodeCommand_encode_append (i : Instr) (rest : List Byte) :
    decodeCommand (encode i ++ rest) = .ok (i, rest) := by
  cases i <;> rfl

/-- What the decoder reads as a command is that command's encoding: each branch fixes the header's
value and names every payload byte. -/
theorem eq_encode_of_decodeCommand {bytes : List Byte} {i : Instr} {rest : List Byte}
    (hd : decodeCommand bytes = .ok (i, rest)) : bytes = encode i ++ rest := by
  unfold decodeCommand at hd
  split at hd
  case h_1 => cases hd
  case h_2 h _ =>
    have header {k : Byte} (hk : h.toNat = k.toNat) : h = k := BitVec.eq_of_toNat_eq hk
    split at hd
    case h_1 e => split at hd <;> cases hd; rw [header (k := 0x01) e]; rfl
    case h_2 e => split at hd <;> cases hd; rw [header (k := 0x02) e]; rfl
    case h_3 e => split at hd <;> cases hd; rw [header (k := 0x03) e]; rfl
    case h_4 e => cases hd; rw [header (k := 0x04) e]; rfl
    case h_5 => cases hd

/-! ### Where a step stops -/

/-- The fetch of a header and too few payload bytes (30_encoding.md R79). -/
theorem fetch_partial {h : Byte} {payload : List Byte}
    (hshort : payload.length + 1 < commandLength h) :
    fetch (sent (h :: payload)) = .incomplete := by
  have hmissing : payload.length < commandLength h - 1 := by omega
  exact fetchPayload_short hmissing [h]

/-- With nothing sent the block waits for a header (60_exceptions.md R200). -/
theorem step_idle {s : State} (hs : s.input = []) : step s = .fault .awaitingHeader := by
  rw [step, hs]
  rfl

/-- With a partial command the block waits for its payload (30_encoding.md R79). -/
theorem step_partial {s : State} {h : Byte} {payload : List Byte}
    (hshort : payload.length + 1 < commandLength h) (hs : s.input = sent (h :: payload)) :
    step s = .fault .awaitingPayload := by
  rw [step, hs, fetch_partial hshort]
  rfl

/-- A step goes on, unless nothing or a partial command is all that was sent. -/
theorem step_isNext_or_waits (s : State) :
    (∃ t, step s = .next t) ∨ s.input = [] ∨
      ∃ h payload, s.input = sent (h :: payload) ∧ payload.length + 1 < commandLength h := by
  rcases fetch_cases s.input with
    ⟨hs, -⟩ | ⟨bs, rest, hp, hs, -⟩ | ⟨h, ps, rest, hl, hs, -⟩ | ⟨h, ps, hshort, hs, -⟩
  · exact .inr (.inl hs)
  · exact .inl ⟨_, step_reset hp hs⟩
  · rcases decode_whole hl with ⟨i, -, he⟩ | ⟨-, rfl, hh⟩
    · obtain ⟨t, ht⟩ := exec_isNext i (withInput rest s)
      exact .inl ⟨t, (step_encode (he ▸ hs)).trans ht⟩
    · exact .inl ⟨_, step_reserved hh hs⟩
  · exact .inr (.inr ⟨h, ps, hs, hshort⟩)

/-! ### What a cycle reads -/

/-- A cycle from a state with the same buffers, cursor and offsets writes the same buffers and
cursor and answers the same bytes. -/
theorem cycled_of_agree (f : SampleFrame) {s s' : State} (hm : s'.mem = s.mem)
    (hc : s'.cursor = s.cursor) (ho : s'.offset = s.offset) :
    cycled f s' =
      { s' with
        mem := (cycled f s).mem
        rsum := (cycled f s').rsum
        cursor := (cycled f s).cursor
        output := s'.output ++ sampleResponse (cycled f s) } := by
  have hmem : (cycled f s').mem = (cycled f s).mem :=
    cycled_mem_congr hm hc (congrArg (correctedValue (decodeSample f)) ho)
  conv_lhs => rw [cycled_eq_self, hmem, sampleResponse_congr hmem, hc]
  rw [cycled_cursor]

theorem cycled_withInput (f : SampleFrame) (rest : List HostAction) (s : State) :
    cycled f (withInput rest s) = withInput rest (cycled f s) := by
  have hrsum : (cycled f (withInput rest s)).rsum = (cycled f s).rsum :=
    cycled_rsum_congr rfl rfl rfl rfl
  refine (cycled_of_agree (s := s) (s' := withInput rest s) f rfl rfl rfl).trans ?_
  rw [hrsum, cycled_cursor]
  conv_rhs => rw [cycled_eq_self]
  rfl

/-! ### A command and the input behind it -/

theorem probed_withInput (f : CalFrame) (rest : List HostAction) (s : State) :
    probed f (withInput rest s) = withInput rest (probed f s) := by
  rw [probed, probed, apply_ite (withInput rest)]
  rfl

/-- DECODE and STATUS read no register outside the STATUS word: with the same word they answer the
same bytes. -/
theorem exec_answer_of_agree {i : Instr} {s s' : State} {out : List Byte}
    (hi : i = .status ∨ ∃ hi lo, i = .decode hi lo) (h : exec i s = .next (respond out s))
    (hword : statusWord s' = statusWord s) : exec i s' = .next (respond out s') := by
  have hout {bytes : List Byte} (hs : exec i s = .next (respond bytes s)) : bytes = out :=
    List.append_cancel_left (congrArg State.output (Host.Outcome.next.inj (hs.symm.trans h)))
  rcases hi with rfl | ⟨hi, lo, rfl⟩
  · rw [exec_status, hword, hout (exec_status s)]
  · rw [exec_decode, hout (exec_decode hi lo s)]

/-- A command does not read the input behind it (20_memory.md R61): any other input there is
carried along. -/
theorem exec_withInput {i : Instr} {s t : State} (h : exec i s = .next t)
    (rest : List HostAction) : exec i (withInput rest s) = .next (withInput rest t) := by
  rcases exec_cases h with ⟨out, rfl, hi⟩ | ⟨f, rfl, hphase, rfl⟩ | ⟨f, rfl, hphase, rfl⟩ |
    ⟨f, rfl, hphase, rfl⟩ | ⟨f, rfl, hphase, rfl⟩
  · exact exec_answer_of_agree hi h rfl
  · rw [exec_calProbe_calibrating (s := withInput rest s) hphase, probed_withInput]
  · exact exec_calProbe_running (s := withInput rest s) hphase
  · rw [exec_sample_running (s := withInput rest s) hphase, cycled_withInput]
  · exact exec_sample_calibrating (s := withInput rest s) hphase

theorem execAll_cons {i : Instr} {s t : State} (h : exec i s = .next t) (is : List Instr) :
    execAll (i :: is) s = execAll is t := by
  rw [execAll, h]

theorem run_succ {M : Host.Core} {s t : M.State} (h : M.step s = .next t) (n : Nat) :
    M.run (n + 1) s = M.run n t := by
  rw [Host.Core.run, h]

/-! ### The obligations -/

/-- Settles O1: one direction is the decoder on an encoding, the other the branches of the
decoder. -/
theorem decodeAndEncodeAgree : Obligations.DecodeAndEncodeAgree :=
  fun _ i rest => ⟨eq_encode_of_decodeCommand, fun h => h ▸ decodeCommand_encode_append i rest⟩

/-- Settles O4: each word is the encoding of its command. -/
theorem writtenOutWordsDecode : Obligations.WrittenOutWordsDecode :=
  ⟨decodeCommand_encode (.decode 0x80 0x01),
    decodeCommand_encode (.calProbe ⟨0x00, 0x0A, 0xFF, 0xFB, 0x7F, 0x03⟩),
    decodeCommand_encode (.sample ⟨0x00, 0x01, 0xFF, 0xFE, 0x80, 0x02, 0x12, 0x34, 0x7F, 0xFD,
      0x00, 0x6E, 0xFF, 0xFB⟩),
    decodeCommand_encode .status⟩

/-- Settles O5: bytes that decode with nothing left are an encoding, on which the step is
`step_encode`. -/
theorem stepRunsTheDecodedCommand : Obligations.StepRunsTheDecodedCommand := by
  intro s bytes i rest _ hd hs
  obtain rfl : bytes = encode i := by simpa using eq_encode_of_decodeCommand hd
  exact step_encode hs

/-- Settles O6: the fetch of a partial command is incomplete. -/
theorem partialCommandIsNeverExecuted : Obligations.PartialCommandIsNeverExecuted :=
  fun _ _ _ hshort hs => step_partial hshort hs

/-- Settles O7: a step that does not go on waits for a header or for a payload, and only with
nothing sent for a header. -/
theorem silenceEnablesNoStep : Obligations.SilenceEnablesNoStep := by
  refine fun s => ⟨fun hstop => ?_, step_idle⟩
  rcases step_isNext_or_waits s with ⟨t, ht⟩ | hs | ⟨h, payload, hs, hshort⟩
  · cases hstop.symm.trans ht
  · exact hs
  · cases hstop.symm.trans (step_partial hshort hs)

/-- Settles O9, by induction on the commands: a step runs the first, which leaves the input behind
it alone and so runs alike before any other. -/
theorem commandStreamRunsInOrder : Obligations.CommandStreamRunsInOrder := by
  intro is
  induction is with
  | nil =>
    intro s rest hs
    obtain rfl : s.input = rest := hs
    rfl
  | cons i is ih =>
    intro s rest hs
    have hsplit : s.input = sent (encode i) ++ (sent (is.flatMap encode) ++ rest) := by
      simpa [sent] using hs
    obtain ⟨t, ht⟩ := exec_isNext i (withInput (sent (is.flatMap encode) ++ rest) s)
    have hfirst : exec i { s with input := rest } = .next { t with input := rest } :=
      exec_withInput ht rest
    have hstep : step s = .next t := (step_encode hsplit).trans ht
    have hrest : Host.Core.run core is.length t = execAll is { t with input := rest } :=
      ih t rest (exec_input ht)
    exact (run_succ (M := core) hstep _).trans (hrest.trans (execAll_cons hfirst is).symm)

/-- Settles O10: every command answers a next state, and so does a step that has a whole command
or a reset before it. -/
theorem onlyWaitingStopsTheBlock : Obligations.OnlyWaitingStopsTheBlock :=
  ⟨exec_isNext, step_isNext_or_waits⟩

end Sys2Proof.Machine
end

section
/-! PROOFS about what each command writes and reads (10_state.md sections 1, 3, 4 and 7,
20_memory.md section 3, 42_filter.md section 1, 43_pipeline.md section 1): the frame of a probe,
what a command makes of registers it does not read, then the obligations. -/

namespace Sys2Proof.Machine

/-! ### The frame of a probe -/

@[simp] theorem probed_cfg (f : CalFrame) (s : State) : (probed f s).cfg = s.cfg := by
  rw [probed]
  split <;> simp

@[simp] theorem probed_mem (f : CalFrame) (s : State) : (probed f s).mem = s.mem := by
  rw [probed]
  split <;> simp

@[simp] theorem probed_cursor (f : CalFrame) (s : State) : (probed f s).cursor = s.cursor := by
  rw [probed]
  split <;> simp

@[simp] theorem probed_rsum (f : CalFrame) (s : State) : (probed f s).rsum = s.rsum := by
  rw [probed]
  split <;> simp

@[simp] theorem probed_output (f : CalFrame) (s : State) : (probed f s).output = s.output := by
  rw [probed]
  split <;> simp

/-- Completing the calibration keeps the sums (41_calibrator.md R121). -/
theorem probed_acc (f : CalFrame) (s : State) :
    (probed f s).acc = (accumulate (decodeGyro f) s).acc := by
  rw [probed]
  split <;> simp

/-- A probe that leaves the counter short of `N_PROBES` only accumulates. -/
theorem probed_not_last (f : CalFrame) {s : State} (h : s.pcnt.toNat + 1 < nProbes s.cfg) :
    probed f s = accumulate (decodeGyro f) s := by
  have hcount := accumulate_pcnt_toNat (decodeGyro f) (s := s) (by omega)
  exact if_neg (by omega)

/-! ### What a command writes -/

/-- A cycle advances the cursor by one modulo 8 (42_filter.md R143). -/
theorem cycled_cursor_toNat (f : SampleFrame) (s : State) :
    (cycled f s).cursor.toNat = (s.cursor.toNat + 1) % 8 := by
  rw [cycled_cursor, BitVec.toNat_ofNat]
  exact Nat.mod_mod_of_dvd _ (by norm_num)

theorem exec_cfg {i : Instr} {s t : State} (h : exec i s = .next t) : t.cfg = s.cfg := by
  rcases exec_cases h with ⟨out, rfl, -⟩ | ⟨f, -, -, rfl⟩ | ⟨f, -, -, rfl⟩ | ⟨f, -, -, rfl⟩ |
    ⟨f, -, -, rfl⟩
  · exact respond_cfg ..
  · exact probed_cfg ..
  · exact raiseCmdError_cfg ..
  · exact cycled_cfg ..
  · exact raiseCmdError_cfg ..

/-- Only an accepted probe writes the calibration state (10_state.md section 1). -/
theorem exec_calibration {i : Instr} {s t : State} (h : exec i s = .next t) :
    (∃ f, i = .calProbe f ∧ s.phase = .calibrating ∧ t = probed f s) ∨
      (t.acc = s.acc ∧ t.pcnt = s.pcnt ∧ t.offset = s.offset ∧ t.phase = s.phase) := by
  rcases exec_cases h with ⟨out, rfl, -⟩ | ⟨f, hi, hphase, ht⟩ | ⟨f, -, -, rfl⟩ |
    ⟨f, -, -, rfl⟩ | ⟨f, -, -, rfl⟩
  · exact .inr ⟨rfl, rfl, rfl, rfl⟩
  · exact .inl ⟨f, hi, hphase, ht⟩
  · exact .inr ⟨rfl, rfl, rfl, rfl⟩
  · exact .inr ⟨cycled_acc .., cycled_pcnt .., cycled_offset .., cycled_phase ..⟩
  · exact .inr ⟨rfl, rfl, rfl, rfl⟩

/-- Only an accepted SAMPLE writes the filter (10_state.md section 4). -/
theorem exec_filter {i : Instr} {s t : State} (h : exec i s = .next t) :
    (∃ f, i = .sample f ∧ s.phase = .running ∧ t = cycled f s) ∨
      (t.mem = s.mem ∧ t.cursor = s.cursor ∧ t.rsum = s.rsum) := by
  rcases exec_cases h with ⟨out, rfl, -⟩ | ⟨f, -, -, rfl⟩ | ⟨f, -, -, rfl⟩ |
    ⟨f, hi, hphase, ht⟩ | ⟨f, -, -, rfl⟩
  · exact .inr ⟨rfl, rfl, rfl⟩
  · exact .inr ⟨probed_mem .., probed_cursor .., probed_rsum ..⟩
  · exact .inr ⟨rfl, rfl, rfl⟩
  · exact .inl ⟨f, hi, hphase, ht⟩
  · exact .inr ⟨rfl, rfl, rfl⟩

/-- While RUNNING no command writes the calibration state (10_state.md section 3). -/
theorem exec_running {i : Instr} {s t : State} (h : exec i s = .next t)
    (hphase : s.phase = .running) :
    t.acc = s.acc ∧ t.pcnt = s.pcnt ∧ t.offset = s.offset ∧ t.phase = s.phase := by
  rcases exec_calibration h with ⟨f, -, hcalibrating, -⟩ | hsame
  · cases hphase.symm.trans hcalibrating
  · exact hsame

/-! ### What a command does not read -/

theorem probed_withRsum (f : CalFrame) (s : State) (r : Option (Six (BitVec 20))) :
    probed f { s with rsum := r } = { probed f s with rsum := r } := by
  rw [probed, probed, apply_ite (fun t : State => ({ t with rsum := r } : State))]
  rfl

theorem cycled_withRsum (f : SampleFrame) (s : State) (r : Option (Six (BitVec 20))) :
    cycled f { s with rsum := r } =
      { cycled f s with rsum := (cycled f { s with rsum := r }).rsum } := by
  refine (cycled_of_agree (s := s) (s' := { s with rsum := r }) f rfl rfl rfl).trans ?_
  rw [cycled_cursor]
  conv_rhs => rw [cycled_eq_self]

theorem cycled_withAcc (f : SampleFrame) (s : State) (a : Xyz Word) :
    cycled f { s with acc := a } = { cycled f s with acc := a } := by
  have hrsum : (cycled f { s with acc := a }).rsum = (cycled f s).rsum :=
    cycled_rsum_congr rfl rfl rfl rfl
  refine (cycled_of_agree (s := s) (s' := { s with acc := a }) f rfl rfl rfl).trans ?_
  rw [hrsum, cycled_cursor]
  conv_rhs => rw [cycled_eq_self]

/-- A probe reads no offset: it keeps them, or the last probe writes all three. -/
theorem probed_withOffset (f : CalFrame) {s : State} (hne : s.phase ≠ .running) (o : Xyz Word) :
    probed f { s with offset := o } =
      { probed f s with
        offset := if (probed f s).phase = .running then (probed f s).offset else o } := by
  by_cases hlast : (accumulate (decodeGyro f) s).pcnt.toNat = nProbes s.cfg
  · have hs : probed f s = calComplete (accumulate (decodeGyro f) s) := if_pos hlast
    rw [hs, calComplete_phase, if_pos rfl]
    exact if_pos hlast
  · have hs : probed f s = accumulate (decodeGyro f) s := if_neg hlast
    rw [hs, accumulate_phase, if_neg hne]
    exact if_neg hlast

/-! ### The obligations -/

/-- Settles O26: only an accepted SAMPLE writes the cursor, and its cycle advances it. -/
theorem cursorAdvancesOnAcceptedSampleOnly : Obligations.CursorAdvancesOnAcceptedSampleOnly := by
  intro i s t h
  rcases exec_cases h with ⟨out, rfl, rfl | ⟨hi, lo, rfl⟩⟩ | ⟨f, rfl, hphase, rfl⟩ |
    ⟨f, rfl, hphase, rfl⟩ | ⟨f, rfl, hphase, rfl⟩ | ⟨f, rfl, hphase, rfl⟩
  · rfl
  · rfl
  · rw [probed_cursor]
  · rfl
  · rw [hphase]
    exact cycled_cursor_toNat f s
  · rw [hphase]
    rfl

/-- Settles O30: a rejected or answering command carries the running sums along, a probe too, and a
cycle reads them for themselves alone. -/
theorem runningSumsAreUnobservable : Obligations.RunningSumsAreUnobservable := by
  intro i s t r h
  rcases exec_cases h with ⟨out, rfl, hi⟩ | ⟨f, rfl, hphase, rfl⟩ | ⟨f, rfl, hphase, rfl⟩ |
    ⟨f, rfl, hphase, rfl⟩ | ⟨f, rfl, hphase, rfl⟩
  · exact ⟨r, exec_answer_of_agree (s' := { s with rsum := r }) hi h rfl⟩
  · exact ⟨r, (exec_calProbe_calibrating (s := { s with rsum := r }) hphase).trans
      (congrArg _ (probed_withRsum f s r))⟩
  · exact ⟨r, exec_calProbe_running (s := { s with rsum := r }) hphase⟩
  · exact ⟨_, (exec_sample_running (s := { s with rsum := r }) hphase).trans
      (congrArg _ (cycled_withRsum f s r))⟩
  · exact ⟨r, exec_sample_calibrating (s := { s with rsum := r }) hphase⟩

/-- Settles O40: the answer of either command is a function of what the answer leaves alone. -/
theorem decodeAndStatusAreIdempotent : Obligations.DecodeAndStatusAreIdempotent := by
  rintro i s (rfl | ⟨hi, lo, rfl⟩)
  · exact ⟨wordBytes (statusWord s), exec_status s, exec_status (respond _ s)⟩
  · exact ⟨[hi, lo], exec_decode hi lo s, exec_decode hi lo (respond _ s)⟩

/-- Settles O47: a reset and a reserved header leave the configuration, and so does every
command. -/
theorem configurationIsNeverWritten : Obligations.ConfigurationIsNeverWritten := by
  intro s t h
  rcases step_cases h with ⟨bs, rest, -, rfl⟩ | ⟨i, rest, -, hexec⟩ | ⟨b, rest, -, rfl⟩
  · rfl
  · exact exec_cfg (s := withInput rest s) hexec
  · rfl

/-- Settles O48: no probe is accepted while RUNNING, so `exec_running` keeps all four. -/
theorem calibrationIsImmutableWhileRunning : Obligations.CalibrationIsImmutableWhileRunning := by
  intro i s t hphase h
  obtain ⟨hacc, hpcnt, hoffset, hsame⟩ := exec_running h hphase
  exact ⟨hsame.trans hphase, hoffset, hacc, hpcnt⟩

/-- Settles O49: while RUNNING every command and a reserved header keep the phase, so a step that
does not is a reset. -/
theorem onlyResetLeavesRunning : Obligations.OnlyResetLeavesRunning := by
  intro s t hrunning h hcalibrating
  rcases step_cases h with ⟨bs, rest, hs, rfl⟩ | ⟨i, rest, -, hexec⟩ | ⟨b, rest, -, rfl⟩
  · exact ⟨by simp [hs], rest, rfl⟩
  · obtain ⟨-, -, -, hsame⟩ := exec_running hexec hrunning
    cases hcalibrating.symm.trans (hsame.trans hrunning)
  · cases hcalibrating.symm.trans hrunning

/-- Settles O50: of the ways a step can go on, a reset enters CALIBRATING and all others but an
accepted probe keep the phase, as does a probe short of the last. -/
theorem onlyTheLastProbeEntersRunning : Obligations.OnlyTheLastProbeEntersRunning := by
  intro s t hphase hcount h hrunning
  rcases step_cases h with ⟨bs, rest, -, rfl⟩ | ⟨i, rest, hs, hexec⟩ | ⟨b, rest, -, rfl⟩
  · cases hrunning
  · rcases exec_calibration hexec with ⟨f, rfl, -, rfl⟩ | ⟨-, -, -, hsame⟩
    · refine ⟨f, rest, hs, by_contra fun hne => ?_⟩
      have hshort : s.pcnt.toNat + 1 < nProbes s.cfg := by omega
      rw [probed_not_last (s := withInput rest s) f hshort] at hrunning
      cases hphase.symm.trans hrunning
    · cases hphase.symm.trans (hsame.symm.trans hrunning)
  · cases hphase.symm.trans hrunning

/-- Settles O51: along the ways a command can end, `exec_filter`. -/
theorem onlySampleWritesTheFilter : Obligations.OnlySampleWritesTheFilter :=
  fun _ _ _ h => (exec_filter h).imp_left fun ⟨f, hi, hphase, _⟩ => ⟨⟨f, hi⟩, hphase⟩

/-- Settles O52: `exec_input` and `exec_calibration`. -/
theorem onlyProbesWriteTheAccumulators : Obligations.OnlyProbesWriteTheAccumulators :=
  fun _ _ _ h => ⟨exec_input h,
    (exec_calibration h).imp_left fun ⟨f, hi, hphase, _⟩ => ⟨⟨f, hi⟩, hphase⟩⟩

/-- Settles O53: while RUNNING a probe is rejected, and nothing else reads an accumulator. -/
theorem accumulatorsAreUnreadWhileRunning : Obligations.AccumulatorsAreUnreadWhileRunning := by
  intro i s t a hphase h
  rcases exec_cases h with ⟨out, rfl, hi⟩ | ⟨f, -, hcalibrating, -⟩ | ⟨f, rfl, -, rfl⟩ |
    ⟨f, rfl, -, rfl⟩ | ⟨f, -, hcalibrating, -⟩
  · exact exec_answer_of_agree (s' := { s with acc := a }) hi h rfl
  · cases hphase.symm.trans hcalibrating
  · exact exec_calProbe_running (s := { s with acc := a }) hphase
  · exact (exec_sample_running (s := { s with acc := a }) hphase).trans
      (congrArg _ (cycled_withAcc f s a))
  · cases hphase.symm.trans hcalibrating

/-- Settles O54: while CALIBRATING a SAMPLE is rejected, a probe is `probed_withOffset`, and the
other commands keep the phase and carry the offsets along. -/
theorem offsetsAreUnreadWhileCalibrating : Obligations.OffsetsAreUnreadWhileCalibrating := by
  intro i s t o hphase h
  have hne : s.phase ≠ .running := by rw [hphase]; decide
  rcases exec_cases h with ⟨out, rfl, hi⟩ | ⟨f, rfl, -, rfl⟩ | ⟨f, -, hrunning, -⟩ |
    ⟨f, -, hrunning, -⟩ | ⟨f, rfl, -, rfl⟩
  · rw [respond_phase, if_neg hne]
    exact exec_answer_of_agree (s' := { s with offset := o }) hi h rfl
  · exact (exec_calProbe_calibrating (s := { s with offset := o }) hphase).trans
      (congrArg _ (probed_withOffset f hne o))
  · exact absurd hrunning hne
  · exact absurd hrunning hne
  · rw [raiseCmdError_phase, if_neg hne]
    exact exec_sample_calibrating (s := { s with offset := o }) hphase

end Sys2Proof.Machine
end

section
/-! PROOFS about the invariant of the block (10_state.md sections 2, 3 and 7, 41_calibrator.md
section 2, 42_filter.md section 2): what it says of the accumulators and the running sums, how the
reset, a probe and a cycle keep it, then the obligations. -/

namespace Sys2Proof.Machine

/-! ### The accumulators -/

/-- One more probe fits the register that holds a possible sum of n of them, and leaves a possible
sum of n + 1 (41_calibrator.md R122). -/
theorem sumOfProbes_add {n : Nat} {acc : Word} (hn : n < 32769) (hacc : SumOfProbes n acc)
    (h l : Byte) :
    (narrowSigned 32 (acc.toInt + decode16 h l)).toInt = acc.toInt + decode16 h l ∧
      SumOfProbes (n + 1) (narrowSigned 32 (acc.toInt + decode16 h l)) := by
  obtain ⟨hlo, hhi⟩ := hacc
  obtain ⟨dlo, dhi⟩ := decode16_range h l
  have hexact : (narrowSigned 32 (acc.toInt + decode16 h l)).toInt = acc.toInt + decode16 h l := by
    refine toInt_narrowSigned ?_ (by omega)
    rw [fitsSigned, decide_eq_true_eq]
    omega
  refine ⟨hexact, ?_⟩
  rw [SumOfProbes, hexact]
  omega

/-- After a probe each accumulator is the exact sum, a possible one of one probe more
(41_calibrator.md R122). -/
theorem accumulate_exact (f : CalFrame) {s : State} (hacc : AccumulatorInv s)
    (hcount : s.pcnt.toNat < nProbes s.cfg) :
    AccumulatorInv (accumulate (decodeGyro f) s) ∧
      (accumulate (decodeGyro f) s).acc.x.toInt = s.acc.x.toInt + decode16 f.gxH f.gxL ∧
      (accumulate (decodeGyro f) s).acc.y.toInt = s.acc.y.toInt + decode16 f.gyH f.gyL ∧
      (accumulate (decodeGyro f) s).acc.z.toInt = s.acc.z.toInt + decode16 f.gzH f.gzL := by
  have hn : s.pcnt.toNat < 32769 := lt_of_lt_of_le hcount (nProbes_le s.cfg)
  obtain ⟨hx, hy, hz⟩ := hacc
  obtain ⟨ex, hx'⟩ := sumOfProbes_add hn hx f.gxH f.gxL
  obtain ⟨ey, hy'⟩ := sumOfProbes_add hn hy f.gyH f.gyL
  obtain ⟨ez, hz'⟩ := sumOfProbes_add hn hz f.gzH f.gzL
  refine ⟨?_, ex, ey, ez⟩
  rw [AccumulatorInv, accumulate_pcnt_toNat _ hcount]
  exact ⟨hx', hy', hz'⟩

/-- A quotient by d is bounded as its dividend is by multiples of d. -/
theorem tdiv_range {n lo hi : Int} {d : Nat} (hd : 0 < d) (hlo0 : lo ≤ 0) (hhi0 : 0 ≤ hi)
    (hlo : lo * d ≤ n) (hhi : n ≤ hi * d) : lo ≤ tdiv n d ∧ tdiv n d ≤ hi := by
  have hd' : (0 : Int) < d := by exact_mod_cast hd
  have bound {m b : Int} (hm : 0 ≤ m) (hmb : m ≤ b * d) : 0 ≤ tdiv m d ∧ tdiv m d ≤ b := by
    rw [tdiv_eq, Int.tdiv_eq_ediv_of_nonneg hm]
    exact ⟨Int.ediv_nonneg hm hd'.le, Int.ediv_le_of_le_mul hd' hmb⟩
  rcases Int.le_total 0 n with hn | hn
  · have := bound hn hhi
    omega
  · have := bound (m := -n) (b := -lo) (by omega) (by rw [neg_mul]; omega)
    rw [tdiv_neg] at this
    omega

/-- While CALIBRATING the counter is short of `N_PROBES` (10_state.md R22). -/
theorem pcnt_lt_of_calibrating {s : State} (hs : BlockInv s) (hphase : s.phase = .calibrating) :
    s.pcnt.toNat < nProbes s.cfg := by
  obtain ⟨hcalibrating, -⟩ := hs.probeCount
  exact hcalibrating hphase

/-! ### The running sums -/

/-- Where the running sums are the sums of the buffers, a cycle leaves them so: the evicted entry
leaves, the new value enters, and the sum fits its register (10_state.md R33). -/
theorem cycled_rsum_exact (f : SampleFrame) {s : State} (hm : s.mem.wf)
    (hsums : RunningSumInv s) {r : Six (BitVec 20)} (hr : s.rsum = some r) :
    ∃ r', (cycled f s).rsum = some r' ∧
      ∀ a, (Six.get r' a).toInt = windowSum (cycled f s) a := by
  obtain ⟨r', hr', hget⟩ := cycled_rsum f hr
  refine ⟨r', hr', fun a => ?_⟩
  rw [hget, hsums r hr a, ← windowSum_cycled f hm a]
  have hrange := windowSum_range (cycled f s) a
  refine toInt_narrowSigned ?_ (by omega)
  rw [fitsSigned, decide_eq_true_eq]
  omega

/-! ### What keeps the invariant -/

/-- The invariant does not read the streams, and of `ERR` only that it is a cause. -/
theorem blockInv_of_frame {s : State} (hs : BlockInv s) {e : BitVec 4} (he : e.toNat ≤ 3)
    (input : List HostAction) (output : List Byte) :
    BlockInv { s with err := e, input := input, output := output } where
  memory := hs.memory
  probeCount := hs.probeCount
  accumulators := hs.accumulators
  offsets := hs.offsets
  filterUntouched := hs.filterUntouched
  errCause := he
  runningSums := hs.runningSums

theorem stickyErr_le {e : BitVec 4} (he : e.toNat ≤ 3) (c : CmdError) :
    (stickyErr e c).toNat ≤ 3 := by
  rw [stickyErr]
  split
  · cases c <;> decide
  · exact he

theorem blockInv_withInput {s : State} (hs : BlockInv s) (rest : List HostAction) :
    BlockInv (withInput rest s) :=
  blockInv_of_frame hs hs.errCause rest s.output

theorem blockInv_respond {s : State} (hs : BlockInv s) (out : List Byte) :
    BlockInv (respond out s) :=
  blockInv_of_frame hs hs.errCause s.input (s.output ++ out)

theorem blockInv_raiseCmdError {s : State} (hs : BlockInv s) (c : CmdError) :
    BlockInv (raiseCmdError c s) :=
  blockInv_of_frame hs (stickyErr_le hs.errCause c) s.input s.output

theorem blockInv_resetWith (c : Config) (hasRsum : Bool) :
    BlockInv (State.resetWith c hasRsum) where
  memory := resetWith_mem_wf c hasRsum
  probeCount := ⟨fun _ => nProbes_pos c, nofun⟩
  accumulators := by
    have hzero : SumOfProbes 0 0 := ⟨le_rfl, le_rfl⟩
    exact ⟨hzero, hzero, hzero⟩
  offsets := ⟨fun _ => rfl, nofun⟩
  filterUntouched := fun _ => ⟨rfl, rfl⟩
  errCause := Nat.zero_le 3
  runningSums := by
    intro r hr a
    rw [windowSum_nil rfl]
    cases hasRsum with
    | false => cases hr
    | true =>
      obtain rfl := Option.some.inj hr
      cases a <;> rfl

/-- A host reset is the state after reset, but for the two streams. -/
theorem hostReset_eq_resetWith (s : State) :
    hostReset s =
      { State.resetWith s.cfg s.rsum.isSome with input := s.input, output := s.output } := by
  rw [hostReset, State.resetWith]
  cases s.rsum <;> rfl

theorem blockInv_hostReset (s : State) : BlockInv (hostReset s) := by
  rw [hostReset_eq_resetWith]
  exact blockInv_of_frame (e := 0) (blockInv_resetWith ..) (Nat.zero_le 3) s.input s.output

/-- A probe keeps the invariant: short of the last it counts up below `N_PROBES`; the last one
reaches it and writes the quotients. -/
theorem blockInv_probed (f : CalFrame) {s : State} (hs : BlockInv s)
    (hphase : s.phase = .calibrating) : BlockInv (probed f s) := by
  have hcount := pcnt_lt_of_calibrating hs hphase
  have hpcnt := accumulate_pcnt_toNat (decodeGyro f) hcount
  obtain ⟨hacc, -⟩ := accumulate_exact f hs.accumulators hcount
  obtain ⟨hoffset, -⟩ := hs.offsets
  rcases Nat.lt_or_ge (s.pcnt.toNat + 1) (nProbes s.cfg) with hshort | hlast
  · rw [probed_not_last f hshort]
    exact
      { memory := hs.memory
        probeCount := ⟨fun _ => hpcnt ▸ hshort, fun hrun => nomatch hphase.symm.trans hrun⟩
        accumulators := hacc
        offsets := ⟨hoffset, fun hrun => nomatch hphase.symm.trans hrun⟩
        filterUntouched := hs.filterUntouched
        errCause := hs.errCause
        runningSums := hs.runningSums }
  · have hlast : s.pcnt.toNat + 1 = nProbes s.cfg := Nat.le_antisymm hcount hlast
    have hquotient (v : Word) : (narrowSigned 32 (tdiv v.toInt (divisorP s.cfg))).toInt =
        tdiv v.toInt (divisorP s.cfg) :=
      (toInt_narrowSigned_tdiv v _).trans (tdiv_eq ..).symm
    rw [probed_last f hlast]
    exact
      { memory := hs.memory
        probeCount := ⟨nofun, fun _ => hpcnt.trans hlast⟩
        accumulators := hacc
        offsets := ⟨nofun, fun _ => ⟨hquotient _, hquotient _, hquotient _⟩⟩
        filterUntouched := nofun
        errCause := hs.errCause
        runningSums := hs.runningSums }

/-- A cycle keeps the invariant: it writes the buffers and the running sums alone of what the
invariant reads. -/
theorem blockInv_cycled (f : SampleFrame) {s : State} (hs : BlockInv s)
    (hphase : s.phase = .running) : BlockInv (cycled f s) where
  memory := cycled_mem_wf hs.memory
  probeCount := by
    rw [ProbeCountInv, cycled_phase, cycled_pcnt, cycled_cfg]
    exact hs.probeCount
  accumulators := by
    rw [AccumulatorInv, cycled_pcnt, cycled_acc]
    exact hs.accumulators
  offsets := by
    rw [OffsetInv, cycled_phase, cycled_offset, cycled_acc, cycled_cfg]
    exact hs.offsets
  filterUntouched := by
    rw [FilterUntouchedInv, cycled_phase, hphase]
    exact nofun
  errCause := by
    rw [ErrInv, cycled_err]
    exact hs.errCause
  runningSums := by
    intro r' hr' a
    have hpresent : s.rsum.isSome = true := by rw [← cycled_rsum_isSome f, hr']; rfl
    obtain ⟨r, hr⟩ := Option.isSome_iff_exists.mp hpresent
    obtain ⟨r'', hr'', hsum⟩ := cycled_rsum_exact f hs.memory hs.runningSums hr
    obtain rfl := Option.some.inj (hr''.symm.trans hr')
    exact hsum a

theorem blockInv_exec {i : Instr} {s t : State} (hs : BlockInv s) (h : exec i s = .next t) :
    BlockInv t := by
  rcases exec_cases h with ⟨out, rfl, -⟩ | ⟨f, -, hphase, rfl⟩ | ⟨f, -, -, rfl⟩ |
    ⟨f, -, hphase, rfl⟩ | ⟨f, -, -, rfl⟩
  · exact blockInv_respond hs out
  · exact blockInv_probed f hs hphase
  · exact blockInv_raiseCmdError hs _
  · exact blockInv_cycled f hs hphase
  · exact blockInv_raiseCmdError hs _

/-! ### The obligations -/

/-- Settles O15: a probe that is not the last is `accumulate`; an accumulator reads back a sum that
fits it. -/
theorem probeAccumulates : Obligations.ProbeAccumulates := by
  intro f s hphase hshort
  refine ⟨accumulate (decodeGyro f) s, ?completes, rfl, ?counter, ?accX, ?accY, ?accZ⟩
  case completes => rw [exec_calProbe_calibrating hphase, probed_not_last f hshort]
  case counter => exact accumulate_pcnt_toNat (decodeGyro f) (by omega)
  case accX | accY | accZ => exact fun hfits => toInt_narrowSigned hfits (by omega)

/-- Settles O20: `accumulate_exact`, as the invariant bounds the sums and the counter. -/
theorem accumulationIsExact : Obligations.AccumulationIsExact := by
  intro f s t hs hphase h
  rw [exec_calProbe_calibrating hphase] at h
  obtain rfl := Host.Outcome.next.inj h
  obtain ⟨-, hsums⟩ := accumulate_exact f hs.accumulators (pcnt_lt_of_calibrating hs hphase)
  rw [probed_acc]
  exact hsums

/-- Settles O31: the running sums after a cycle are its numerators, which are those before less the
evicted entry plus the new value. -/
theorem incrementalMeanEqualsFullMean : Obligations.IncrementalMeanEqualsFullMean := by
  intro f s r hs hphase hr
  obtain ⟨r', hr', hsum⟩ := cycled_rsum_exact f hs.memory hs.runningSums hr
  refine ⟨cycled f s, r', exec_sample_running hphase, hr', fun a => ?update, ?response⟩
  case update => rw [hsum, windowSum_cycled f hs.memory, hs.runningSums r hr]
  case response =>
    rw [cycled_output, sampleResponse]
    simp only [hsum]

/-- Settles O44: `blockInv_resetWith`. -/
theorem resetMeetsTheInvariant : Obligations.ResetMeetsTheInvariant :=
  ⟨blockInv_resetWith, blockInv_resetWith ..⟩

/-- Settles O45: of the ways a step can go on, a reset establishes the invariant, and a command and
a reserved header keep it. -/
theorem stepKeepsTheInvariant : Obligations.StepKeepsTheInvariant := by
  intro s t hs h
  rcases step_cases h with ⟨bs, rest, -, rfl⟩ | ⟨i, rest, -, hexec⟩ | ⟨b, rest, -, rfl⟩
  · exact blockInv_hostReset _
  · exact blockInv_exec (blockInv_withInput hs rest) hexec
  · exact blockInv_raiseCmdError (blockInv_withInput hs rest) _

/-- Settles O46: an offset is the quotient by P of a possible sum of P probes, or of P + 1, which
is at most twice as many. -/
theorem offsetsStayInTheirRange : Obligations.OffsetsStayInTheirRange := by
  intro s hs hphase o ho
  obtain ⟨-, hcount⟩ := hs.probeCount
  obtain ⟨-, hquotients⟩ := hs.offsets
  obtain ⟨hx, hy, hz⟩ := hs.accumulators
  obtain ⟨ox, oy, oz⟩ := hquotients hphase
  obtain ⟨acc, ⟨hlo, hhi⟩, hquotient⟩ :
      ∃ acc, SumOfProbes s.pcnt.toNat acc ∧ o.toInt = tdiv acc.toInt (divisorP s.cfg) := by
    rcases ho with rfl | rfl | rfl
    · exact ⟨_, hx, ox⟩
    · exact ⟨_, hy, oy⟩
    · exact ⟨_, hz, oz⟩
  have hP := divisorP_pos s.cfg
  rw [hcount hphase, nProbes, extraBit_toNat] at hlo hhi
  rw [hquotient]
  refine ⟨fun hextra => ?_, fun hextra => ?_⟩ <;> rw [hextra] at hlo hhi
  · exact tdiv_range hP (by omega) (by omega) (by simpa using hlo) (by simpa using hhi)
  · rw [if_pos rfl] at hlo hhi
    exact tdiv_range hP (by omega) (by omega) (by omega) (by omega)

end Sys2Proof.Machine
end

section
/-! PROOFS about the buffer space, the filter and the cycle (20_memory.md section 1, 42_filter.md
sections 1 and 3, 43_pipeline.md section 2): the addresses, one entry's write, the bytes of a
response, then the obligations. -/

namespace Sys2Proof.Machine

/-! ### Addresses -/

theorem exists_axis_index {n : Nat} (hn : n < 6) : ∃ a : Axis, a.index = n := by
  match n, hn with
  | 0, _ => exact ⟨.accelX, rfl⟩
  | 1, _ => exact ⟨.accelY, rfl⟩
  | 2, _ => exact ⟨.accelZ, rfl⟩
  | 3, _ => exact ⟨.gyroX, rfl⟩
  | 4, _ => exact ⟨.gyroY, rfl⟩
  | 5, _ => exact ⟨.gyroZ, rfl⟩

/-- The entries of the six buffers are exactly the addresses that exist (20_memory.md R51). -/
theorem exists_bufAddr_iff (addr : BitVec 6) : addr.toNat < 48 ↔ ∃ a i, addr = bufAddr a i := by
  constructor
  · intro hlt
    obtain ⟨a, ha⟩ := exists_axis_index (n := addr.toNat / 8) (by omega)
    refine ⟨a, BitVec.ofNat 3 addr.toNat, BitVec.eq_of_toNat_eq ?_⟩
    rw [bufAddr_toNat, ha, BitVec.toNat_ofNat]
    omega
  · rintro ⟨a, i, rfl⟩
    exact bufAddr_lt a i

/-! ### One entry -/

theorem memRead_of_lt {addr : BitVec 6} (h : addr.toNat < 48) (s : State) :
    memRead addr s = .ok (readEntry s.mem addr.toNat).toInt := if_pos h

theorem memRead_of_ge {addr : BitVec 6} (h : 48 ≤ addr.toNat) (s : State) :
    memRead addr s = .error .noSuchEntry := if_neg (Nat.not_lt.2 h)

theorem memWrite_of_lt {addr : BitVec 6} (h : addr.toNat < 48) (v : Int) (s : State) :
    memWrite addr v s = .ok { s with mem := writeEntry s.mem addr.toNat (narrowSigned 16 v) } :=
  if_pos h

theorem memWrite_of_ge {addr : BitVec 6} (h : 48 ≤ addr.toNat) (v : Int) (s : State) :
    memWrite addr v s = .error .noSuchEntry := if_neg (Nat.not_lt.2 h)

/-- An entry reads back the value written to it, if the value is in its range. -/
theorem toInt_narrowSigned16 {v : Int} (hlo : -32768 ≤ v) (hhi : v ≤ 32767) :
    (narrowSigned 16 v).toInt = v := by
  refine toInt_narrowSigned ?_ (by omega)
  rw [fitsSigned, decide_eq_true_eq]
  omega

/-- A write of one entry leaves what any other address reads. -/
theorem memRead_writeEntry_other {addr addr' : BitVec 6} (hne : addr' ≠ addr) (v : Half)
    (s : State) :
    memRead addr' { s with mem := writeEntry s.mem addr.toNat v } = memRead addr' s := by
  have hne' : addr'.toNat ≠ addr.toNat := BitVec.toNat_ne_iff_ne.2 hne
  rcases Nat.lt_or_ge addr'.toNat 48 with hlt | hge
  · rw [memRead_of_lt hlt, memRead_of_lt hlt, readEntry_writeEntry_other _ _ hne']
  · rw [memRead_of_ge hge, memRead_of_ge hge]

/-- The numerator in its 19 bits (42_filter.md R141). -/
theorem toInt_narrowSigned_windowSum (s : State) (a : Axis) :
    (narrowSigned 19 (windowSum s a)).toInt = windowSum s a := by
  have hrange := windowSum_range s a
  refine toInt_narrowSigned ?_ (by omega)
  rw [fitsSigned, decide_eq_true_eq]
  omega

/-! ### The cycle -/

/-- Outside the entries at the cursor the writes of a cycle leave every byte. -/
theorem readByte_axesWritten (v : Axis → Int) (as : List Axis) (s : State) {address : Nat}
    (hout : ∀ a : Axis, address ≠ 2 * (bufAddr a s.cursor).toNat ∧
      address ≠ 2 * (bufAddr a s.cursor).toNat + 1) :
    readByte (as.foldl (axisWritten v) s).mem address = readByte s.mem address := by
  induction as generalizing s with
  | nil => rfl
  | cons b as ih =>
    obtain ⟨hhigh, hlow⟩ := hout b
    exact (ih (axisWritten v s b) hout).trans (readByte_writeEntry_other _ _ hhigh hlow)

theorem readByte_cycled (f : SampleFrame) (s : State) {address : Nat}
    (hout : ∀ a : Axis, address ≠ 2 * (bufAddr a s.cursor).toNat ∧
      address ≠ 2 * (bufAddr a s.cursor).toNat + 1) :
    readByte (cycled f s).mem address = readByte s.mem address := by
  rw [cycled_eq]
  exact readByte_axesWritten _ _ s hout

/-! ### The response -/

/-- The sign extension of 00_scope.md R8 reads a word's bits as its signed value. -/
theorem sext_toNat (v : Word) : sext 32 v.toNat = v.toInt := by
  rw [sext, BitVec.toInt_eq_toNat_cond]
  norm_num
  split <;> split <;> omega

/-- The four bytes of a numerator, as one big-endian number, are its two's-complement form. -/
theorem sext_sumBytes (s : State) (a : Axis) :
    sext 32 ((sumBytes (windowSum s a)).foldl (fun n b => n * 256 + b.toNat) 0) =
      windowSum s a := by
  have hvalue (v : Word) :
      (wordBytes v).foldl (fun n b => n * 256 + b.toNat) 0 = v.toNat := by
    rw [← wordBytes_value v]
    simp only [wordBytes, List.foldl_cons, List.foldl_nil]
    omega
  rw [sumBytes, hvalue, sext_toNat, BitVec.toInt_signExtend_of_le (by omega),
    toInt_narrowSigned_windowSum]

/-- The numerator of axis a stands at byte 4·a of the response (43_pipeline.md R163). -/
theorem sampleResponse_at (t : State) (a : Axis) :
    ((sampleResponse t).drop (4 * a.index)).take 4 = sumBytes (windowSum t a) := by
  cases a <;> rfl

/-! ### The obligations -/

/-- Settles O23: the addresses are `exists_bufAddr_iff`; a write and a read below 48 are those of
the entry, and from 48 on both fault. -/
theorem bufferSpaceReadsWhatWasWritten : Obligations.BufferSpaceReadsWhatWasWritten := by
  refine ⟨bufAddr_toNat, exists_bufAddr_iff, fun addr v s hlt hm hlo hhi => ?written,
    fun addr v s hge => ⟨memRead_of_ge hge s, memWrite_of_ge hge v s⟩⟩
  case written =>
    refine ⟨_, memWrite_of_lt hlt v s, rfl, writeEntry_wf hm hlt _, ?same,
      fun addr' hne => memRead_writeEntry_other hne _ s⟩
    case same =>
      rw [memRead_of_lt hlt, readEntry_writeEntry_same hm.1, toInt_narrowSigned16 hlo hhi]

/-- Settles O24: the write is that of the one entry at the axis's cursor address, which no other
axis and slot shares. -/
theorem filterWriteStoresAtTheCursor : Obligations.FilterWriteStoresAtTheCursor := by
  intro a v s hm hlo hhi
  refine ⟨_, filterWrite_eq a v s, rfl, writeEntry_wf hm (bufAddr_lt a s.cursor) _, fun b i => ?_⟩
  rw [bufEntry]
  split
  · next hsame =>
    obtain ⟨rfl, rfl⟩ := hsame
    rw [readEntry_writeEntry_same hm.1, toInt_narrowSigned16 hlo hhi]
  · next hother =>
    have hne : (bufAddr b i).toNat ≠ (bufAddr a s.cursor).toNat :=
      fun h => hother (bufAddr_toNat_inj.mp h)
    rw [readEntry_writeEntry_other _ _ hne, bufEntry]

/-- Settles O25: the sum is the window's, whose addresses are 8·a .. 8·a + 7 and whose range is
`windowSum_range`. -/
theorem filterSumIsExactInNineteenBits : Obligations.FilterSumIsExactInNineteenBits := by
  intro a s
  obtain ⟨hlo, hhi⟩ := windowSum_range s a
  refine ⟨?sum, hlo, hhi, toInt_narrowSigned_windowSum s a⟩
  case sum =>
    rw [filterSum_eq, windowSum_eq]
    simp [bufEntry, bufAddr_toNat, List.range_succ]

/-- Settles O29: eight times V over eight. -/
theorem constantWindowHasThatMean : Obligations.ConstantWindowHasThatMean := by
  intro s a v hv
  have hsum : windowSum s a = 8 * v := by
    rw [windowSum_eq]
    simp only [hv]
    ring
  rw [meanOf, hsum]
  push_cast
  ring

/-- Settles O33: an accepted SAMPLE leaves `cycled`; each clause is a law of it. -/
theorem sampleWritesSumsAndAdvances : Obligations.SampleWritesSumsAndAdvances := by
  intro f s hphase hm
  refine ⟨cycled f s, exec_sample_running hphase, ?_, cycled_mem_wf hm,
    cycled_rsum_isSome f s, fun a i => bufEntry_cycled f hm a i, cycled_cursor_toNat f s,
    cycled_output f s⟩
  rw [cycled_eq]

/-- Settles O34: `sampleResponse_at` finds the four bytes of an axis, and `sext_sumBytes` reads
them. -/
theorem sampleAnswersSixBigEndianSums : Obligations.SampleAnswersSixBigEndianSums := by
  intro f s t hphase h
  rw [exec_sample_running hphase] at h
  obtain rfl := Host.Outcome.next.inj h
  refine ⟨sampleResponse (cycled f s), cycled_output f s, rfl, fun a => ?_⟩
  rw [sampleResponse_at, sext_sumBytes]

/-- Settles O35: a rejected SAMPLE writes no buffer, and a cycle only the entries at the cursor. -/
theorem sampleStoresAtTheCursorOnly : Obligations.SampleStoresAtTheCursorOnly := by
  intro f s t h address hout
  rcases exec_filter h with ⟨f', -, -, rfl⟩ | ⟨hmem, -, -⟩
  · exact readByte_cycled f' s hout
  · rw [hmem]

end Sys2Proof.Machine
end

section
/-! PROOFS about runs of commands (41_calibrator.md sections 1 and 3, 42_filter.md section 3): a
whole calibration by induction on its probes, the window law by induction on the samples, then the
obligations. -/

namespace Sys2Proof.Machine

/-! ### A whole calibration -/

/-- What the probes fs, the last of them the `N_PROBES`-th, make of the state s: the sums of their
values on top of those before, and no response and no error. -/
structure CalibratedBy (fs : List CalFrame) (s t : State) : Prop where
  inv : BlockInv t
  phase : t.phase = .running
  cfg : t.cfg = s.cfg
  err : t.err = s.err
  output : t.output = s.output
  sumX : t.acc.x.toInt = s.acc.x.toInt + (fs.map fun f => decode16 f.gxH f.gxL).sum
  sumY : t.acc.y.toInt = s.acc.y.toInt + (fs.map fun f => decode16 f.gyH f.gyL).sum
  sumZ : t.acc.z.toInt = s.acc.z.toInt + (fs.map fun f => decode16 f.gzH f.gzL).sum

/-- The last probe is a whole calibration of its own. -/
theorem calibratedBy_last (f : CalFrame) {s : State} (hs : BlockInv s)
    (hphase : s.phase = .calibrating) (hlast : s.pcnt.toNat + 1 = nProbes s.cfg) :
    CalibratedBy [f] s (probed f s) := by
  obtain ⟨-, hx, hy, hz⟩ := accumulate_exact f hs.accumulators (by omega)
  rw [← probed_acc] at hx hy hz
  exact
    { inv := blockInv_probed f hs hphase
      phase := by rw [probed_last f hlast, calComplete_phase]
      cfg := probed_cfg f s
      err := probed_err f s
      output := probed_output f s
      sumX := by simpa using hx
      sumY := by simpa using hy
      sumZ := by simpa using hz }

/-- A probe before a calibration adds its values to the sums. -/
theorem calibratedBy_cons {f : CalFrame} {fs : List CalFrame} {s t : State} (hs : BlockInv s)
    (hcount : s.pcnt.toNat < nProbes s.cfg) (h : CalibratedBy fs (probed f s) t) :
    CalibratedBy (f :: fs) s t := by
  obtain ⟨-, hx, hy, hz⟩ := accumulate_exact f hs.accumulators hcount
  rw [← probed_acc] at hx hy hz
  exact
    { inv := h.inv
      phase := h.phase
      cfg := h.cfg.trans (probed_cfg f s)
      err := h.err.trans (probed_err f s)
      output := h.output.trans (probed_output f s)
      sumX := by rw [h.sumX, hx, List.map_cons, List.sum_cons, add_assoc]
      sumY := by rw [h.sumY, hy, List.map_cons, List.sum_cons, add_assoc]
      sumZ := by rw [h.sumZ, hz, List.map_cons, List.sum_cons, add_assoc] }

/-- As many probes as the counter lacks complete the calibration. -/
theorem execAll_calProbes {fs : List CalFrame} {s : State} (hs : BlockInv s)
    (hphase : s.phase = .calibrating) (hlength : s.pcnt.toNat + fs.length = nProbes s.cfg) :
    ∃ t, execAll (fs.map .calProbe) s = .next t ∧ CalibratedBy fs s t := by
  induction fs generalizing s with
  | nil => exact absurd hlength (pcnt_lt_of_calibrating hs hphase).ne
  | cons f fs ih =>
    have hcount := pcnt_lt_of_calibrating hs hphase
    have hfirst := execAll_cons (exec_calProbe_calibrating (f := f) hphase) (fs.map .calProbe)
    rw [List.length_cons] at hlength
    rcases fs with _ | ⟨g, gs⟩
    · exact ⟨_, hfirst, calibratedBy_last f hs hphase hlength⟩
    · rw [List.length_cons] at hlength
      have hshort := probed_not_last f (s := s) (by omega)
      have hpcnt := accumulate_pcnt_toNat (decodeGyro f) hcount
      have hs' := blockInv_probed f hs hphase
      rw [hshort] at hs'
      obtain ⟨t, ht, hcal⟩ := ih hs' hphase
        (by rw [hpcnt, accumulate_cfg, List.length_cons]; omega)
      rw [← hshort] at ht hcal
      exact ⟨t, hfirst.trans ht, calibratedBy_cons hs hcount hcal⟩

/-- From reset, `N_PROBES` probes complete the calibration (41_calibrator.md R121). -/
theorem execAll_calProbes_reset {c : Config} (hasRsum : Bool) {fs : List CalFrame}
    (hlength : fs.length = nProbes c) :
    ∃ t, execAll (fs.map .calProbe) (State.resetWith c hasRsum) = .next t ∧
      CalibratedBy fs (State.resetWith c hasRsum) t :=
  execAll_calProbes (blockInv_resetWith c hasRsum) rfl ((Nat.zero_add _).trans hlength)

/-- The offsets after a calibration from reset are the quotients of the sums of its probes. -/
theorem calibratedBy_offsets {c : Config} {hasRsum : Bool} {fs : List CalFrame} {t : State}
    (h : CalibratedBy fs (State.resetWith c hasRsum) t) :
    t.offset.x.toInt = tdiv (fs.map fun f => decode16 f.gxH f.gxL).sum (divisorP c) ∧
      t.offset.y.toInt = tdiv (fs.map fun f => decode16 f.gyH f.gyL).sum (divisorP c) ∧
      t.offset.z.toInt = tdiv (fs.map fun f => decode16 f.gzH f.gzL).sum (divisorP c) := by
  obtain ⟨-, hquotients⟩ := h.inv.offsets
  obtain ⟨hx, hy, hz⟩ := hquotients h.phase
  have hzero (v : Int) : (0 : Word).toInt + v = v := Int.zero_add v
  rw [h.cfg, h.sumX] at hx
  rw [h.cfg, h.sumY] at hy
  rw [h.cfg, h.sumZ] at hz
  exact ⟨hx.trans (congrArg (tdiv · _) (hzero _)), hy.trans (congrArg (tdiv · _) (hzero _)),
    hz.trans (congrArg (tdiv · _) (hzero _))⟩

/-! ### Constant probes -/

theorem tdiv_mul_self (g : Int) {d : Nat} (hd : 0 < d) : tdiv (d * g) d = g := by
  have hd' : (d : Int) ≠ 0 := by exact_mod_cast hd.ne'
  rw [tdiv_eq, Int.mul_tdiv_cancel_left _ hd']

/-- One value more than the divisor: the multiple and the rest have the same sign. -/
theorem tdiv_succ_mul (g : Int) {d : Nat} (hd : 0 < d) :
    tdiv ((d + 1) * g) d = g + tdiv g d := by
  have hd' : (0 : Int) < d := by exact_mod_cast hd
  have hpos {m : Int} (hm : 0 ≤ m) : tdiv ((d + 1) * m) d = m + tdiv m d := by
    rw [tdiv_eq, tdiv_eq, Int.tdiv_eq_ediv_of_nonneg hm,
      Int.tdiv_eq_ediv_of_nonneg (Int.mul_nonneg (by omega) hm), add_mul, one_mul,
      Int.add_comm, Int.add_mul_ediv_left _ _ hd'.ne', Int.add_comm]
  rcases Int.le_total 0 g with hg | hg
  · exact hpos hg
  · have hneg := hpos (m := -g) (by omega)
    rw [mul_neg, tdiv_neg, tdiv_neg] at hneg
    omega

/-- The quotient of `N_PROBES` equal values (41_calibrator.md section 3). -/
theorem tdiv_constant (c : Config) (g : Int) :
    (c.calExtraProbe = false → tdiv (nProbes c * g) (divisorP c) = g) ∧
      (c.calExtraProbe = true →
        tdiv (nProbes c * g) (divisorP c) = g + tdiv g (divisorP c)) := by
  rw [nProbes, extraBit_toNat]
  refine ⟨fun hextra => ?_, fun hextra => ?_⟩ <;> rw [hextra]
  · exact tdiv_mul_self g (divisorP_pos c)
  · rw [if_pos rfl, Nat.cast_add, Nat.cast_one, tdiv_succ_mul g (divisorP_pos c)]

/-! ### The window law -/

/-- Buffer a holds the last eight of the values vs, the k-th of them in slot k mod 8, and nothing
in a slot not yet written (42_filter.md section 3). -/
structure WindowOf (vs : List Int) (s : State) (a : Axis) : Prop where
  recent : ∀ (k : Nat) (hk : k < vs.length), vs.length ≤ k + 8 →
    bufEntry s a (BitVec.ofNat 3 k) = vs[k]
  unwritten : ∀ i : BitVec 3, vs.length ≤ i.toNat → bufEntry s a i = 0
  sum : windowSum s a = (vs.drop (vs.length - 8)).sum

theorem windowOf_nil {s : State} (hs : s.mem = []) (a : Axis) : WindowOf [] s a where
  recent _ hk := absurd hk (Nat.not_lt_zero _)
  unwritten i _ := bufEntry_nil hs a i
  sum := windowSum_nil hs a

/-- The cursor stands on the k-th slot of the last eight exactly at the n-th value's. -/
theorem ofNat_eq_cursor_iff {s : State} {n : Nat} (hc : s.cursor.toNat = n % 8) (k : Nat) :
    BitVec.ofNat 3 k = s.cursor ↔ k % 8 = n % 8 := by
  rw [← BitVec.toNat_inj, BitVec.toNat_ofNat, hc]

/-- The entry a cycle evicts is the oldest of eight values, or a slot not yet written: with the new
value the sum is again that of the last eight. -/
theorem sum_drop_append {vs : List Int} {s : State} {a : Axis} (hw : WindowOf vs s a)
    (hc : s.cursor.toNat = vs.length % 8) (v : Int) :
    ((vs ++ [v]).drop ((vs ++ [v]).length - 8)).sum =
      windowSum s a - bufEntry s a s.cursor + v := by
  have hlength : (vs ++ [v]).length = vs.length + 1 := List.length_append
  rw [hw.sum, hlength]
  rcases Nat.lt_or_ge vs.length 8 with hfew | hfull
  · rw [hw.unwritten s.cursor (by omega), show vs.length + 1 - 8 = 0 by omega,
      show vs.length - 8 = 0 by omega, List.drop_zero, List.drop_zero, List.sum_append,
      List.sum_singleton, sub_zero]
  · have hslot : BitVec.ofNat 3 (vs.length - 8) = s.cursor :=
      (ofNat_eq_cursor_iff hc _).2 (by omega)
    have hevicted : bufEntry s a s.cursor = vs[vs.length - 8] := by
      rw [← hslot]
      exact hw.recent _ (by omega) (by omega)
    rw [hevicted, List.drop_eq_getElem_cons (show vs.length - 8 < vs.length by omega),
      List.drop_append_of_le_length (by omega), List.sum_append, List.sum_singleton,
      List.sum_cons, show vs.length + 1 - 8 = vs.length - 8 + 1 by omega, add_sub_cancel_left]

/-- A cycle appends its value to the window. -/
theorem windowOf_cycled (f : SampleFrame) {vs : List Int} {s : State} {a : Axis} (hm : s.mem.wf)
    (hc : s.cursor.toNat = vs.length % 8) (hw : WindowOf vs s a) :
    WindowOf (vs ++ [cycleValues f s a]) (cycled f s) a where
  recent k hk hlast := by
    rw [List.length_append, List.length_singleton] at hk hlast
    rw [bufEntry_cycled f hm, List.getElem_append]
    split
    · next hslot =>
      have hmod := (ofNat_eq_cursor_iff hc k).1 hslot
      rw [dif_neg (by omega), List.getElem_singleton]
    · next hslot =>
      have hne : k ≠ vs.length := fun h => hslot ((ofNat_eq_cursor_iff hc k).2 (by rw [h]))
      have hk' : k < vs.length := by omega
      rw [dif_pos hk', hw.recent k hk' (by omega)]
  unwritten i hi := by
    rw [List.length_append, List.length_singleton] at hi
    have hne : i ≠ s.cursor := BitVec.toNat_ne_iff_ne.1 (by omega)
    rw [bufEntry_cycled f hm, if_neg hne, hw.unwritten i (by omega)]
  sum := by rw [sum_drop_append hw hc, windowSum_cycled f hm]

/-- The values of axis a in the frames fs, less the offsets o (43_pipeline.md R162). -/
def axisValues (o : Xyz Word) (a : Axis) (fs : List SampleFrame) : List Int :=
  fs.map fun f => correctedValue (decodeSample f) o a

@[simp] theorem axisValues_length (o : Xyz Word) (a : Axis) (fs : List SampleFrame) :
    (axisValues o a fs).length = fs.length := List.length_map _

/-- After the frames gs, the frames fs are accepted and extend the window of each axis. -/
theorem execAll_samples {fs gs : List SampleFrame} {s : State} (hphase : s.phase = .running)
    (hm : s.mem.wf) (hc : s.cursor.toNat = gs.length % 8)
    (hw : ∀ a, WindowOf (axisValues s.offset a gs) s a) :
    ∃ t, execAll (fs.map .sample) s = .next t ∧ t.cursor.toNat = (gs ++ fs).length % 8 ∧
      ∀ a, WindowOf (axisValues s.offset a (gs ++ fs)) t a := by
  induction fs generalizing gs s with
  | nil =>
    rw [List.append_nil]
    exact ⟨s, rfl, hc, hw⟩
  | cons f fs ih =>
    have hc' : (cycled f s).cursor.toNat = (gs ++ [f]).length % 8 := by
      rw [cycled_cursor_toNat, hc, List.length_append, List.length_singleton, Nat.mod_add_mod]
    have hw' (a : Axis) :
        WindowOf (axisValues (cycled f s).offset a (gs ++ [f])) (cycled f s) a := by
      rw [cycled_offset, axisValues, List.map_append]
      exact windowOf_cycled f hm (by rw [hc, List.length_map]) (hw a)
    obtain ⟨t, ht, hcursor, hwindow⟩ :=
      ih ((cycled_phase f s).trans hphase) (cycled_mem_wf hm) hc' hw'
    rw [cycled_offset, List.append_assoc] at hwindow
    rw [List.append_assoc] at hcursor
    exact ⟨t, (execAll_cons (exec_sample_running hphase) _).trans ht, hcursor, hwindow⟩

/-! ### The obligations -/

/-- Settles O21: a whole calibration from reset, whose counter and offsets the invariant of the
state it leaves gives. -/
theorem calibrationIsTheTruncatedSum : Obligations.CalibrationIsTheTruncatedSum := by
  intro c hasRsum fs hlength
  obtain ⟨t, ht, h⟩ := execAll_calProbes_reset hasRsum hlength
  obtain ⟨-, hcount⟩ := h.inv.probeCount
  have hpcnt : t.pcnt.toNat = nProbes c := (hcount h.phase).trans (congrArg nProbes h.cfg)
  have hzero (v : Int) : (0 : Word).toInt + v = v := Int.zero_add v
  exact ⟨t, ht, h.phase, hpcnt, h.err, h.output, h.sumX.trans (hzero _), h.sumY.trans (hzero _),
    h.sumZ.trans (hzero _), calibratedBy_offsets h⟩

/-- Settles O22: the sum of `N_PROBES` equal values is a multiple of them, whose quotient is
`tdiv_constant`. -/
theorem constantProbesGiveTheOffset : Obligations.ConstantProbesGiveTheOffset := by
  intro c hasRsum f
  obtain ⟨t, ht, h⟩ :=
    execAll_calProbes_reset hasRsum (List.length_replicate (n := nProbes c) (a := f))
  obtain ⟨hx, hy, hz⟩ := calibratedBy_offsets h
  have hsum (g : CalFrame → Int) :
      ((List.replicate (nProbes c) f).map g).sum = nProbes c * g f := by
    rw [List.map_replicate, List.sum_replicate, nsmul_eq_mul]
  rw [hsum] at hx hy hz
  rw [List.map_replicate] at ht
  obtain ⟨hxP, hxP1⟩ := tdiv_constant c (decode16 f.gxH f.gxL)
  obtain ⟨hyP, hyP1⟩ := tdiv_constant c (decode16 f.gyH f.gyL)
  obtain ⟨hzP, hzP1⟩ := tdiv_constant c (decode16 f.gzH f.gzL)
  exact ⟨t, ht, h.phase,
    fun hextra => ⟨hx.trans (hxP hextra), hy.trans (hyP hextra), hz.trans (hzP hextra)⟩,
    fun hextra => ⟨hx.trans (hxP1 hextra), hy.trans (hyP1 hextra), hz.trans (hzP1 hextra)⟩⟩

/-- Settles O27: `execAll_samples` from the empty window. -/
theorem windowHoldsTheLastEightValues : Obligations.WindowHoldsTheLastEightValues := by
  intro fs s hphase hmem hcursor
  have hm : s.mem.wf := hmem ▸ reset_mem_wf
  obtain ⟨t, ht, hc, hw⟩ := execAll_samples (fs := fs) (gs := []) hphase hm
    (by rw [hcursor]; rfl) fun a => windowOf_nil hmem a
  refine ⟨t, ht, hc, fun a => ⟨fun k hk hlast => ?recent, fun i hi => ?unwritten, ?sum⟩⟩
  case recent =>
    have hk' : k < (axisValues s.offset a fs).length := by rwa [axisValues_length]
    rw [(hw a).recent k hk' (by rwa [List.nil_append, axisValues_length])]
    exact List.getElem_map _
  case unwritten => exact (hw a).unwritten i (by rwa [List.nil_append, axisValues_length])
  case sum => rw [(hw a).sum, List.nil_append, axisValues_length, axisValues]

end Sys2Proof.Machine
end

section
/-! PROOFS about fields and operands (10_state.md section 5, 40_decoder.md section 1,
41_calibrator.md section 2, 00_scope.md section 4, 30_encoding.md section 6): the STATUS word, the
Register Codec backwards, the divide by a shifter, the assembler, then the obligations. -/

namespace Sys2Proof.Machine

/-! ### The Register Codec backwards -/

theorem decode16_bytes (v : Half) :
    decode16 (v.extractLsb' 8 8) (v.extractLsb' 0 8) = v.toInt := by
  rw [decode16_eq_toInt]
  exact congrArg BitVec.toInt (half_of_bytes v)

theorem decode16_inj {h l h' l' : Byte} (he : decode16 h l = decode16 h' l') :
    h = h' ∧ l = l' := by
  rw [decode16_eq_toInt, decode16_eq_toInt] at he
  have hbits := BitVec.eq_of_toInt_eq he
  exact ⟨by rw [← high_of_append h l, hbits, high_of_append],
    by rw [← low_of_append h l, hbits, low_of_append]⟩

/-! ### The divide by a shifter -/

/-- From zero up the arithmetic shift is the truncating quotient (41_calibrator.md R124). -/
theorem asr_of_nonneg {n : Int} (hn : 0 ≤ n) (k : Nat) : asr n k = tdiv n (2 ^ k) :=
  (tdiv_of_nonneg hn (2 ^ k)).symm

/-- Below zero the bias rounds the floor up (41_calibrator.md R124). -/
theorem asr_bias_of_neg {n : Int} (hn : n < 0) (k : Nat) :
    asr (n + (((2 ^ k : Nat) : Int) - 1)) k = tdiv n (2 ^ k) := by
  have hd : (0 : Int) < ((2 ^ k : Nat) : Int) := by exact_mod_cast Nat.two_pow_pos k
  rw [asr, tdiv_of_neg hn]
  generalize ((2 ^ k : Nat) : Int) = d at hd
  rw [Int.fdiv_eq_ediv_of_nonneg _ hd.le, Int.fdiv_eq_ediv_of_nonneg _ hd.le]
  have hq := Int.mul_ediv_add_emod (-n) d
  have hr0 := Int.emod_nonneg (-n) hd.ne'
  have hr1 := Int.emod_lt_of_pos (-n) hd
  have hsplit : n + (d - 1) = (d - 1 - -n % d) + d * -(-n / d) := by
    rw [mul_neg]
    omega
  rw [hsplit, Int.add_mul_ediv_left _ _ hd.ne', Int.ediv_eq_zero_of_lt (by omega) (by omega),
    zero_add]

/-! ### The fields of the STATUS word -/

/-- A field of a word as a digit of its value. -/
theorem toNat_wordField (v : Word) (k n : Nat) :
    (v.extractLsb' k n).toNat = v.toNat / 2 ^ k % 2 ^ n := by
  rw [BitVec.extractLsb'_toNat, Nat.shiftRight_eq_div_pow]

/-! ### The configuration -/

/-- A configuration is admitted with the values it was given, and no other (00_scope.md R6). -/
theorem ofParams_eq_some {p e : Nat} {c : Config} :
    Config.ofParams? p e = some c ↔ c.pLog2.val = p ∧ (extraBit c).toNat = e := by
  obtain ⟨⟨q, hq⟩, b⟩ := c
  rw [extraBit_toNat, Config.ofParams?]
  split
  · next hp =>
    split
    · cases b <;> simp [eq_comm]
    · cases b <;> simp [eq_comm]
    · next h0 h1 =>
      refine ⟨nofun, fun ⟨_, he⟩ => ?_⟩
      cases b
      · exact absurd he.symm h0
      · exact absurd he.symm h1
  · next hp =>
    refine ⟨nofun, fun ⟨hqp, _⟩ => absurd ?_ hp⟩
    rw [← hqp]
    exact hq

/-! ### The assembler -/

/-- The bytes of an operand field are those of v mod 65536 (30_encoding.md R83). -/
theorem asmField_of_range {v : Int} (hv : operandInRange v = true) :
    ∃ h l, asmField v = some (h, l) ∧
      ((h.toNat * 256 + l.toNat : Nat) : Int) = v % 65536 ∧ decode16 h l = wrap 16 v := by
  refine ⟨_, _, if_pos hv, ?_⟩
  have hvalue : (BitVec.ofNat 8 ((v % 65536).toNat / 256)).toNat * 256 +
      (BitVec.ofNat 8 (v % 65536).toNat).toNat = (v % 65536).toNat := by
    rw [BitVec.toNat_ofNat, BitVec.toNat_ofNat]
    omega
  refine ⟨by rw [hvalue]; omega, ?_⟩
  rw [decode16_eq_sext, hvalue]
  rfl

theorem operandInRange_iff (v : Int) : operandInRange v = true ↔ -32768 ≤ v ∧ v ≤ 65535 :=
  decide_eq_true_iff

/-- A byte operand in 0..255 gives its byte (30_encoding.md R81). -/
theorem asmByte_of_range {v : Int} (hv : 0 ≤ v ∧ v ≤ 255) :
    ∃ b : Byte, asmByte v = some b ∧ (b.toNat : Int) = v := by
  obtain ⟨b, hb⟩ := Option.ne_none_iff_exists'.mp fun h => asmByte_eq_none.mp h hv
  exact ⟨b, hb, asmByte_eq_some.mp hb⟩

theorem asmCommands_singleton (a : AsmCommand) : asmCommands [a] = asmCommand a := by
  rw [asmCommands_cons]
  cases asmCommand a with
  | none => rfl
  | some b => exact congrArg some (List.append_nil b)

/-- Copies of one command give copies of its bytes, and none if it is an error. -/
theorem asmCommands_replicate (a : AsmCommand) (n : Nat) :
    asmCommands (List.replicate (n + 1) a) =
      (asmCommand a).map fun b => (List.replicate (n + 1) b).flatten := by
  induction n with
  | zero =>
    rw [List.replicate_one, asmCommands_singleton]
    cases asmCommand a <;> simp
  | succ n ih =>
    rw [List.replicate_succ, asmCommands_cons, ih]
    cases asmCommand a <;> rfl

/-- The bytes of in-range byte operands, verbatim (30_encoding.md R81). -/
theorem asmBytes_of_range {vs : List Int} (hvs : ∀ v ∈ vs, 0 ≤ v ∧ v ≤ 255) :
    ∃ bytes : List Byte, asmBytes vs = some bytes ∧ bytes.map (fun b => (b.toNat : Int)) = vs := by
  induction vs with
  | nil => exact ⟨[], rfl, rfl⟩
  | cons v vs ih =>
    obtain ⟨hv, hvs⟩ := List.forall_mem_cons.mp hvs
    obtain ⟨b, hb, hvalue⟩ := asmByte_of_range hv
    obtain ⟨bytes, hbytes, hvalues⟩ := ih hvs
    refine ⟨b :: bytes, ?_, by rw [List.map_cons, hvalue, hvalues]⟩
    rw [asmBytes_cons, hb, hbytes]
    rfl

/-- One byte operand out of range, and there are no bytes (log entry 9). -/
theorem asmBytes_eq_none {vs : List Int} (hvs : ∃ v ∈ vs, ¬ (0 ≤ v ∧ v ≤ 255)) :
    asmBytes vs = none := by
  induction vs with
  | nil => simp at hvs
  | cons v vs ih =>
    obtain ⟨w, hw, hout⟩ := hvs
    rw [asmBytes_cons]
    rcases List.mem_cons.mp hw with rfl | hw
    · rw [asmByte_eq_none.mpr hout]
      rfl
    · rw [ih ⟨w, hw, hout⟩]
      cases asmByte v <;> rfl

theorem asmCommand_calProbe_eq_none {gx gy gz : Int}
    (hvs : ∃ v ∈ [gx, gy, gz], operandInRange v = false) :
    asmCommand (.calProbe gx gy gz) = none := by
  obtain ⟨v, hv, hout⟩ := hvs
  have hnone := asmField_eq_none.mpr hout
  simp only [List.mem_cons, List.not_mem_nil, or_false] at hv
  rcases hv with rfl | rfl | rfl
  all_goals simp [asmCommand, hnone]

theorem asmCommand_sample_eq_none {ax ay az t gx gy gz : Int}
    (hvs : ∃ v ∈ [ax, ay, az, t, gx, gy, gz], operandInRange v = false) :
    asmCommand (.sample ax ay az t gx gy gz) = none := by
  obtain ⟨v, hv, hout⟩ := hvs
  have hnone := asmField_eq_none.mpr hout
  simp only [List.mem_cons, List.not_mem_nil, or_false] at hv
  rcases hv with rfl | rfl | rfl | rfl | rfl | rfl | rfl
  all_goals simp [asmCommand, hnone]

/-! ### The obligations -/

/-- Settles O12: the preimage of v is the pair of bytes of its 16-bit form. -/
theorem decodeSixteenIsABijection : Obligations.DecodeSixteenIsABijection := by
  refine ⟨decode16_range, fun v hlo hhi => ?_⟩
  have hv : decode16 ((BitVec.ofInt 16 v).extractLsb' 8 8) ((BitVec.ofInt 16 v).extractLsb' 0 8) =
      v := by
    rw [decode16_bytes, ← wrap16_eq, wrap16_of_range hlo hhi]
  refine ⟨(_, _), hv, fun p hp => ?_⟩
  obtain ⟨hhigh, hlow⟩ := decode16_inj (hp.trans hv.symm)
  exact Prod.ext hhigh hlow

/-- Settles O19: from zero up both are the plain shift; below, the bias and the magnitude round
toward zero. -/
theorem shifterRealisesTheDivide : Obligations.ShifterRealisesTheDivide := by
  intro n k
  rw [tdivByShift, tdivBySignMagnitude]
  split
  · next hn => exact ⟨asr_of_nonneg hn k, asr_of_nonneg hn k⟩
  · next hn =>
    have hneg : n < 0 := Int.not_le.mp hn
    exact ⟨asr_bias_of_neg hneg k, by rw [asr_of_nonneg (by omega), tdiv_neg, neg_neg]⟩

/-- Settles O38: each field is a digit of the word's value. -/
theorem statusWordFields : Obligations.StatusWordFields := by
  intro s
  have hword := statusWord_toNat s
  have hextra := extraBit_le s.cfg
  have hpLog2 := s.cfg.pLog2.isLt
  have hpcnt := s.pcnt.isLt
  have herr := s.err.isLt
  have hcursor := s.cursor.isLt
  have hphase := s.phase.bit.isLt
  refine ⟨?phase, ?cursor, ?err, ?pcnt, ?pLog2, ?extra, ?reserved⟩
  case pLog2 =>
    rw [toNat_wordField]
    omega
  case extra =>
    refine (BitVec.eq_of_toNat_eq ?_ : _ = extraBit s.cfg)
    rw [toNat_wordField]
    omega
  case reserved =>
    apply BitVec.eq_of_toNat_eq
    rw [toNat_wordField, show (0 : BitVec 3).toNat = 0 from rfl]
    omega
  all_goals
    apply BitVec.eq_of_toNat_eq
    rw [toNat_wordField]
    omega

/-- Settles O39: of the digits of the STATUS word the reset leaves those of the configuration. -/
theorem statusWordAfterReset : Obligations.StatusWordAfterReset := by
  have hvalue (c : Config) (hasRsum : Bool) : (statusWord (State.resetWith c hasRsum)).toNat =
      (if c.calExtraProbe then 2 ^ 28 else 0) + c.pLog2.val * 2 ^ 24 := by
    have hzeros : (statusWord (State.resetWith c hasRsum)).toNat =
        (((((extraBit c).toNat * 2 ^ 4 + c.pLog2.val) * 2 ^ 16 + 0) * 2 ^ 4 + 0) * 2 ^ 3 + 0) *
          2 ^ 1 + 0 := statusWord_toNat _
    rw [hzeros, extraBit_toNat]
    split <;> omega
  exact ⟨hvalue, BitVec.eq_of_toNat_eq (hvalue Config.default true)⟩

/-- Settles O55: `ofParams_eq_some` both ways; the bounds are those of P and `N_PROBES`. -/
theorem configurationsOutsideTheRangeAreRefused :
    Obligations.ConfigurationsOutsideTheRangeAreRefused := by
  refine ⟨fun p e => ⟨fun hsome => ?admitted, fun ⟨hp, he⟩ => ?admits⟩, fun p e c hc => ?values⟩
  case admitted =>
    obtain ⟨c, hc⟩ := Option.isSome_iff_exists.mp hsome
    obtain ⟨rfl, rfl⟩ := ofParams_eq_some.mp hc
    exact ⟨Nat.le_of_lt_succ c.pLog2.isLt, extraBit_le c⟩
  case admits =>
    have hc : Config.ofParams? p e = some { pLog2 := ⟨p, by omega⟩, calExtraProbe := e == 1 } := by
      refine ofParams_eq_some.mpr ⟨rfl, ?_⟩
      rw [extraBit_toNat]
      interval_cases e <;> rfl
    rw [hc]
    rfl
  case values =>
    obtain ⟨rfl, rfl⟩ := ofParams_eq_some.mp hc
    exact ⟨rfl, rfl, divisorP_pos c, rfl, nProbes_le c⟩

/-- Settles O56: in range `asmField_of_range`, out of range `asmField_eq_none`. -/
theorem assembledFieldDecodesToItsValue : Obligations.AssembledFieldDecodesToItsValue := by
  refine fun v => ⟨fun hv => asmField_of_range ((operandInRange_iff v).mpr hv), fun hv => ?_⟩
  refine asmField_eq_none.mpr (Bool.eq_false_iff.mpr fun hin => ?_)
  have hrange := (operandInRange_iff v).mp hin
  omega

/-- Settles O57: each operand in range gives its field or byte, so a command of them gives its
encoding, which decodes; one out of range gives none. -/
theorem assembledCommandsDecode : Obligations.AssembledCommandsDecode := by
  refine ⟨fun c a => asmCommands_singleton a, fun gx gy gz hvs => ?probe,
    fun _ _ _ => asmCommand_calProbe_eq_none, fun ax ay az t gx gy gz hvs => ?sample,
    fun _ _ _ _ _ _ _ => asmCommand_sample_eq_none, fun hi lo hhi hlo => ?decode,
    fun hi lo hout => ?decodeNone, ⟨rfl, rfl⟩, fun vs => asmBytes_of_range,
    fun vs => asmBytes_eq_none⟩
  case probe =>
    simp only [List.forall_mem_cons, List.not_mem_nil, false_imp_iff, implies_true, and_true] at hvs
    obtain ⟨hx, hy, hz⟩ := hvs
    obtain ⟨gxH, gxL, ex, -, dx⟩ := asmField_of_range hx
    obtain ⟨gyH, gyL, ey, -, dy⟩ := asmField_of_range hy
    obtain ⟨gzH, gzL, ez, -, dz⟩ := asmField_of_range hz
    refine ⟨_, { gxH, gxL, gyH, gyL, gzH, gzL }, ?_, decodeCommand_encode _, ?_⟩
    · rw [asmCommand, ex, ey, ez]
      rfl
    · rw [decodeGyro, dx, dy, dz]
  case sample =>
    simp only [List.forall_mem_cons, List.not_mem_nil, false_imp_iff, implies_true, and_true] at hvs
    obtain ⟨hax, hay, haz, ht, hx, hy, hz⟩ := hvs
    obtain ⟨axH, axL, eax, -, dax⟩ := asmField_of_range hax
    obtain ⟨ayH, ayL, eay, -, day⟩ := asmField_of_range hay
    obtain ⟨azH, azL, eaz, -, daz⟩ := asmField_of_range haz
    obtain ⟨tH, tL, et, -, dt⟩ := asmField_of_range ht
    obtain ⟨gxH, gxL, ex, -, dx⟩ := asmField_of_range hx
    obtain ⟨gyH, gyL, ey, -, dy⟩ := asmField_of_range hy
    obtain ⟨gzH, gzL, ez, -, dz⟩ := asmField_of_range hz
    refine ⟨_, { axH, axL, ayH, ayL, azH, azL, tH, tL, gxH, gxL, gyH, gyL, gzH, gzL }, ?_,
      decodeCommand_encode _, ?_⟩
    · rw [asmCommand, eax, eay, eaz, et, ex, ey, ez]
      rfl
    · rw [decodeSample, dax, day, daz, dt, dx, dy, dz]
  case decode =>
    obtain ⟨h, eh, vh⟩ := asmByte_of_range hhi
    obtain ⟨l, el, vl⟩ := asmByte_of_range hlo
    refine ⟨h, l, vh, vl, ?_, decodeCommand_encode (.decode h l)⟩
    rw [asmCommand, eh, el]
    rfl
  case decodeNone =>
    rw [asmCommand]
    by_cases hhi : 0 ≤ hi ∧ hi ≤ 255
    · rw [asmByte_eq_none.mpr fun hlo => hout ⟨hhi, hlo⟩]
      cases asmByte hi <;> rfl
    · rw [asmByte_eq_none.mpr hhi]
      rfl

/-- Settles O58: a constant calibration is copies of one command, at least one of them, the other
two are one command. -/
theorem pseudoInstructionsExpand : Obligations.PseudoInstructionsExpand := by
  refine ⟨fun c gx gy gz => ?copies, fun _ _ _ _ => asmCommands_singleton _,
    fun _ _ _ _ => asmCommands_singleton _⟩
  case copies =>
    obtain ⟨n, hn⟩ := Nat.exists_eq_succ_of_ne_zero (nProbes_pos c).ne'
    rw [asmLine, asmExpand, hn]
    exact asmCommands_replicate _ n

end Sys2Proof.Machine
end
